-- ==== Sys2Proof/Word.lean ====
section
/-! DEFINITION. The word and byte types of the block (00_scope.md R6, R7, R8): `WORD_BITS` = 32, bytes of 8 bits.
`+` on `Word` is the "wrapping 32-bit addition" of R8; `^^^`, `&&&`, `|||`, `~~~` are its bitwise operations. -/

namespace Sys2Proof

/-- A byte of a byte sequence (R7). -/
abbrev Byte := BitVec 8

/-- A 32-bit word: a register's value (R6 `REG_BITS`) and a word of the algorithm (R6 `WORD_BITS`). -/
abbrev Word := BitVec 32

end Sys2Proof
end

