-- ==== Sys2Proof/Syntax.lean ====
section
/-! DEFINITION. The instructions of the block, one constructor for each row of spec/opcode_table.json, and the two
formats they are written in: CMD, a command word, and BUS, a register access (30_encoding.md section 1, R57, R58). -/

namespace Sys2Proof

/-- The seven commands the OP field selects (R61). -/
inductive Op where
  | hashInit
  | hashUpdate
  | hashFinal
  | macStart
  | macFinal
  | tokenGen
  | clear
deriving DecidableEq, Repr

/-- The direction of a bus access (R58). -/
inductive Dir where
  | read
  | write
deriving DecidableEq, Repr

/-- One instruction; each constructor is one row of the opcode table. -/
inductive Instr where
  /-- HASH_INIT (R81). -/
  | hashInit
  /-- HASH_UPDATE with its NBYTES field, of which only 64 is accepted (R59, R82). -/
  | hashUpdate (n : BitVec 7)
  /-- HASH_FINAL n (R83). -/
  | hashFinal (n : BitVec 7)
  /-- MAC_START (R90). -/
  | macStart
  /-- MAC_FINAL n (R91). -/
  | macFinal (n : BitVec 7)
  /-- TOKEN_GEN (R103). -/
  | tokenGen
  /-- CLEAR (R113). -/
  | clear
  /-- ILLEGAL_OP0: a command word with OP = 0 (R114); the whole word is kept. -/
  | illegalOp0 (w : Word)
  /-- ILLEGAL_OP8_15: a command word with OP = 8..15 (R114). -/
  | illegalOp8To15 (w : Word)
  /-- ILLEGAL_RESERVED: OP = 1..7 with a reserved bit set, or NBYTES ≠ 0 for OP 1, 4, 6, 7 (R114). -/
  | illegalReserved (w : Word)
  /-- RD: a read of the register at `off` (R104). -/
  | rd (off : BitVec 12)
  /-- WR.CMD: a write of the command word `v` to CMD (R105). -/
  | wrCmd (v : Word)
  /-- WR.CFG (R106). -/
  | wrCfg (v : Word)
  /-- WR.IRQ_EN (R107). -/
  | wrIrqEn (v : Word)
  /-- WR.KEYLEN (R108). -/
  | wrKeylen (v : Word)
  /-- WR.COUNTER (R109). -/
  | wrCounter (v : Word)
  /-- WR.MSG: a write to MSGi (R110). -/
  | wrMsg (i : BitVec 4) (v : Word)
  /-- WR.KEY: a write to KEYi (R111). -/
  | wrKey (i : BitVec 4) (v : Word)
  /-- WR.IGNORED: a write to a read-only or unmapped offset (R112). -/
  | wrIgnored (off : BitVec 12) (v : Word)
deriving DecidableEq, Repr

/-- A BUS access as it reaches the block (R58): direction, size in bytes, byte offset, and the data written
(0 where the access is a read: a read's data is returned, not sent). -/
structure BusAccess where
  dir : Dir
  size : Nat
  off : BitVec 12
  data : Word
deriving DecidableEq, Repr

/-- An instruction as it is written: "Every instruction is one of these two" formats (30_encoding.md section 1). -/
inductive Access where
  /-- Format CMD: a command word, "the 32-bit value of a write to CMD". -/
  | cmd (w : Word)
  /-- Format BUS: a register access. -/
  | bus (b : BusAccess)
deriving DecidableEq, Repr

end Sys2Proof
end

