-- ==== Sys2Proof/WellFormed.lean ====
section
/-! DEFINITION. Which terms of `Instr` stand for an instruction of the table: the three illegal rows and the ignored
write cover each exactly their own words and offsets (R63, R64, R112), and an offset is a multiple of 4 (R58). A count
outside its range (R59) is well formed: it decodes, and the command's check rejects it. -/

namespace Sys2Proof

/-- `off[1:0] = 0` (R58). -/
def aligned (off : BitVec 12) : Bool := off.extractLsb' 0 2 == 0

/-- The offsets of the writable registers (R62): CMD, CFG, IRQ_EN, KEYLEN, COUNTER, MSG0..15, KEY0..15. -/
def writable (off : BitVec 12) : Bool :=
  off == 0x004 || off == 0x00C || off == 0x010 || off == 0x014 || off == 0x018 ||
    off.extractLsb' 6 6 == 1 || off.extractLsb' 6 6 == 2

/-- `NBYTES ≠ 0` is illegal for OP 1, 4, 6 and 7 (R59, R63). -/
def takesNoCount (op : BitVec 4) : Bool := op == 1 || op == 4 || op == 6 || op == 7

/-- The instruction is one the encoding of the spec can express. -/
def Instr.wf : Instr → Bool
  | .hashInit => true
  | .hashUpdate _ => true
  | .hashFinal _ => true
  | .macStart => true
  | .macFinal _ => true
  | .tokenGen => true
  | .clear => true
  | .illegalOp0 w => w.extractLsb' 0 4 == 0
  | .illegalOp8To15 w => 8 ≤ w.extractLsb' 0 4
  | .illegalReserved w =>
      w.extractLsb' 0 4 != 0 && w.extractLsb' 0 4 < 8 &&
        (w.extractLsb' 4 4 != 0 || w.extractLsb' 15 17 != 0 ||
          (takesNoCount (w.extractLsb' 0 4) && w.extractLsb' 8 7 != 0))
  | .rd off => aligned off
  | .wrCmd _ => true
  | .wrCfg _ => true
  | .wrIrqEn _ => true
  | .wrKeylen _ => true
  | .wrCounter _ => true
  | .wrMsg _ _ => true
  | .wrKey _ _ => true
  | .wrIgnored off _ => aligned off && !writable off

end Sys2Proof
end

