-- ==== Sys2Proof/Decode.lean ====
section
/-! DEFINITION. Decoding of both formats, total, and the encoder written from the same tables (30_encoding.md R57 to
R64; the offsets of 10_state.md R15). An access that is no 4-byte access at a multiple of 4 is rejected by name (R44). -/

namespace Sys2Proof

/-! ## The offsets of the register map (R15) -/

def offId : BitVec 12 := 0x000
def offCmd : BitVec 12 := 0x004
def offStatus : BitVec 12 := 0x008
def offCfg : BitVec 12 := 0x00C
def offIrqEn : BitVec 12 := 0x010
def offKeylen : BitVec 12 := 0x014
def offCounter : BitVec 12 := 0x018
def offTlenLo : BitVec 12 := 0x01C
def offTlenHi : BitVec 12 := 0x020
def offTrunc : BitVec 12 := 0x024
def offToken : BitVec 12 := 0x028
/-- TOKSTR0; TOKSTRj stands at `+ 4j`, j = 0..2. -/
def offTokstr : BitVec 12 := 0x02C
/-- MSG0; MSGi stands at `+ 4i`, i = 0..15. -/
def offMsg : BitVec 12 := 0x040
/-- KEY0; KEYi stands at `+ 4i`, i = 0..15. -/
def offKey : BitVec 12 := 0x080
/-- DIGEST0; DIGESTi stands at `+ 4i`, i = 0..4. -/
def offDigest : BitVec 12 := 0x0C0
/-- HEX0; HEXj stands at `+ 4j`, j = 0..9. -/
def offHex : BitVec 12 := 0x100

/-! ## Format CMD -/

/-- OP, bits 3:0 of a command word (R57). -/
def fieldOp (v : Word) : BitVec 4 := v.extractLsb' 0 4

/-- RSV0, bits 7:4 (R57). -/
def fieldRsv0 (v : Word) : BitVec 4 := v.extractLsb' 4 4

/-- NBYTES, bits 14:8 (R57). -/
def fieldNbytes (v : Word) : BitVec 7 := v.extractLsb' 8 7

/-- RSV1, bits 31:15 (R57). -/
def fieldRsv1 (v : Word) : BitVec 17 := v.extractLsb' 15 17

/-- The OP value of a command (R61). -/
def opCode : Op → BitVec 4
  | .hashInit => 1
  | .hashUpdate => 2
  | .hashFinal => 3
  | .macStart => 4
  | .macFinal => 5
  | .tokenGen => 6
  | .clear => 7

/-- The command an OP value selects; 0 and 8..15 select none (R61). -/
def opOfCode (c : BitVec 4) : Option Op :=
  if c = 1 then some .hashInit
  else if c = 2 then some .hashUpdate
  else if c = 3 then some .hashFinal
  else if c = 4 then some .macStart
  else if c = 5 then some .macFinal
  else if c = 6 then some .tokenGen
  else if c = 7 then some .clear
  else none

/-- The commands that have an NBYTES operand: "op in {2, 3, 5}" (R64). -/
def takesCount : Op → Bool
  | .hashUpdate => true
  | .hashFinal => true
  | .macFinal => true
  | .hashInit => false
  | .macStart => false
  | .tokenGen => false
  | .clear => false

/-- `Decode(v)` of R64: `none` is its `Illegal`, `some (op, n)` its `Cmd(op, n)`. -/
def commandOf (v : Word) : Option (Op × BitVec 7) :=
  match opOfCode (fieldOp v) with
  | none => none
  | some op =>
    if fieldRsv0 v ≠ 0 ∨ fieldRsv1 v ≠ 0 then none
    else if takesCount op = false ∧ fieldNbytes v ≠ 0 then none
    else some (op, fieldNbytes v)

/-- The instruction of a command and its count. -/
def commandInstr : Op → BitVec 7 → Instr
  | .hashInit, _ => .hashInit
  | .hashUpdate, n => .hashUpdate n
  | .hashFinal, n => .hashFinal n
  | .macStart, _ => .macStart
  | .macFinal, n => .macFinal n
  | .tokenGen, _ => .tokenGen
  | .clear, _ => .clear

/-- The instruction of a command word, total over all 2^32 words (R63, R64). An illegal word belongs to the first of
the table's three illegal rows that matches it: DEDUCED, safe (notes/assumptions/8.md). -/
def decodeCmd (v : Word) : Instr :=
  match commandOf v with
  | some (op, n) => commandInstr op n
  | none =>
    if fieldOp v = 0 then .illegalOp0 v
    else if 8 ≤ fieldOp v then .illegalOp8To15 v
    else .illegalReserved v

/-- A command word `OP | NBYTES << 8` with RSV0 = RSV1 = 0 (R57). -/
def cmdWord (op : Op) (n : BitVec 7) : Word :=
  (opCode op).zeroExtend 32 ||| ((n.zeroExtend 32) <<< 8)

/-! ## Format BUS -/

/-- Why an access is no instruction (R44, R45). -/
inductive Reject where
  /-- A size other than 4 bytes. -/
  | badSize
  /-- `off mod 4 ≠ 0`. -/
  | misaligned
deriving DecidableEq, Repr

/-- `off[5:2]`, the register number inside MSG and KEY (opcode_table.json WR.MSG, WR.KEY). -/
def windowIndex (off : BitVec 12) : BitVec 4 := off.extractLsb' 2 4

/-- `off[11:6]`, which 64-byte window the offset lies in. -/
def windowOf (off : BitVec 12) : BitVec 6 := off.extractLsb' 6 6

/-- The write instruction at an offset that is a multiple of 4 (R62). -/
def decodeWrite (off : BitVec 12) (v : Word) : Instr :=
  if off = offCmd then .wrCmd v
  else if off = offCfg then .wrCfg v
  else if off = offIrqEn then .wrIrqEn v
  else if off = offKeylen then .wrKeylen v
  else if off = offCounter then .wrCounter v
  else if windowOf off = 1 then .wrMsg (windowIndex off) v
  else if windowOf off = 2 then .wrKey (windowIndex off) v
  else .wrIgnored off v

/-- The instruction of a bus access (R58, R62), or why it is none (R44). -/
def decodeBus (b : BusAccess) : Except Reject Instr :=
  if b.size ≠ 4 then .error .badSize
  else if b.off.extractLsb' 0 2 ≠ 0 then .error .misaligned
  else match b.dir with
    | .read => .ok (.rd b.off)
    | .write => .ok (decodeWrite b.off b.data)

/-- Decoding, total on both formats. -/
def decode : Access → Except Reject Instr
  | .cmd w => .ok (decodeCmd w)
  | .bus b => decodeBus b

/-! ## The encoder -/

/-- A bus write of `v` at `off`. -/
def busWrite (off : BitVec 12) (v : Word) : Access := .bus ⟨.write, 4, off, v⟩

/-- A bus read at `off`. -/
def busRead (off : BitVec 12) : Access := .bus ⟨.read, 4, off, 0⟩

/-- The offset `base + 4i` of register i of a window of 16 (R15). -/
def windowOffset (base : BitVec 12) (i : BitVec 4) : BitVec 12 := base + (i.zeroExtend 12 <<< 2)

/-- The access an instruction is written as (R57, R58, R61, R62). -/
def encode : Instr → Access
  | .hashInit => .cmd (cmdWord .hashInit 0)
  | .hashUpdate n => .cmd (cmdWord .hashUpdate n)
  | .hashFinal n => .cmd (cmdWord .hashFinal n)
  | .macStart => .cmd (cmdWord .macStart 0)
  | .macFinal n => .cmd (cmdWord .macFinal n)
  | .tokenGen => .cmd (cmdWord .tokenGen 0)
  | .clear => .cmd (cmdWord .clear 0)
  | .illegalOp0 w => .cmd w
  | .illegalOp8To15 w => .cmd w
  | .illegalReserved w => .cmd w
  | .rd off => busRead off
  | .wrCmd v => busWrite offCmd v
  | .wrCfg v => busWrite offCfg v
  | .wrIrqEn v => busWrite offIrqEn v
  | .wrKeylen v => busWrite offKeylen v
  | .wrCounter v => busWrite offCounter v
  | .wrMsg i v => busWrite (windowOffset offMsg i) v
  | .wrKey i v => busWrite (windowOffset offKey i) v
  | .wrIgnored off v => busWrite off v

/-! ## Words numbered as spec/opcode_table.json numbers them -/

/-- The access a table word stands for (notes/assumptions/7.md, DESIGN CHOICE). A row of format BUS has a 12-bit offset,
so 16 bits in whole bytes; its data, 32 bits above those, is 0 where `nbits` ends before it. The table gives no bit to
the direction: bit 15, above the 12-bit offset, is taken as 1 for a read. Every other row is a command word. -/
def tableAccess (nbits w : Nat) : Access :=
  if (8 < nbits ∧ nbits ≤ 16) ∨ 32 < nbits then
    .bus ⟨if w.testBit 15 then .read else .write, 4, BitVec.ofNat 12 w, BitVec.ofNat 32 (w / 2 ^ 16)⟩
  else .cmd (BitVec.ofNat 32 w)

/-- What the decoder reads from a table word. -/
def decodeTableWord (nbits w : Nat) : Option Instr :=
  match decode (tableAccess nbits w) with
  | .ok i => some i
  | .error _ => none

end Sys2Proof
end

