-- ==== Sys2Proof/Config.lean ====
section
/-! DEFINITION. What one instance of the block fixes: the parameters of 00_scope.md R6, and the OPEN base address
`P_BASE`. `P_LATENCY` (R6, R137) is no constant: it is where the completion falls in `State.inputs`
(notes/assumptions/1.md). -/

namespace Sys2Proof

/-- `ID_VALUE` (R6, R16): "the ASCII bytes "SHA1" packed big-endian". -/
def Config.idValue : Word := 0x53484131

/-- `WINDOW_BYTES` (R6, R43). -/
def Config.windowBytes : Nat := 4096

/-- `KEY_MAX_BYTES` (R6, R87). -/
def Config.keyMaxBytes : Nat := 64

/-- `BLOCK_BYTES` (R6). -/
def Config.blockBytes : Nat := 64

/-- `DIGITS_DEFAULT` (R6, R19). -/
def Config.digitsDefault : BitVec 4 := 6

/-- `DIGITS_MAX` (R6, R19); `DIGITS_MIN` is 1. -/
def Config.digitsMax : BitVec 4 := 10

/-- The page number of the window. OPEN (R6, D2, I8): no body, so no proof can see its value.
UNVERIFIED; safe: a claim holds for every placement (notes/assumptions/6.md). -/
opaque Config.pBasePage : Nat

/-- `P_BASE` (R6, R43): "a platform parameter, 4096-aligned". -/
def Config.pBase : Nat := Config.windowBytes * Config.pBasePage

end Sys2Proof
end

