-- ==== Sys2Proof/Machine/State.lean ====
section
/-! DEFINITION. The state of the block (10_state.md), what reaches it, why a step can stop, and the state after reset
(R42). Plain data throughout. -/

namespace Sys2Proof.Machine

/-- STATUS.MODE (R34). "The value 3 is never produced": it has no constructor (notes/assumptions/14.md). -/
inductive Mode where
  | idle
  | hash
  | mac
deriving DecidableEq, Repr

/-- STATUS.ERRCODE (R115); the codes 8..15 are "never produced" (notes/assumptions/14.md). -/
inductive ErrCode where
  | none
  | illegalCmd
  | badSequence
  | badNbytes
  | badKeylen
  | busyWrite
  | badDigits
  | cfgLocked
deriving DecidableEq, Repr

/-- The two agents that take steps (R10). -/
inductive Agent where
  | host
  | engine
deriving DecidableEq, Repr

/-- The Digest State `H[0..4]` (R33). -/
structure Digest where
  h0 : Word
  h1 : Word
  h2 : Word
  h3 : Word
  h4 : Word
deriving DecidableEq, Repr

/-- PEND, the accepted command `(op, nbytes)` (R38). -/
structure Pending where
  op : Op
  nbytes : BitVec 7
deriving DecidableEq, Repr

/-- An access as the platform addresses it, before `P_BASE` is taken off (R9, R43). -/
structure PlatformAccess where
  dir : Dir
  size : Nat
  addr : Nat
  data : Word
deriving DecidableEq, Repr

/-- What comes next from outside or from the Engine (R10, R52, R119, R128; notes/assumptions/1.md). -/
inductive Event where
  /-- The Host performs one access. -/
  | access (a : Access)
  /-- The Host performs one access by platform address. -/
  | platform (p : PlatformAccess)
  /-- The Engine takes its completion step, if it is enabled. -/
  | engine
  /-- The platform asserts reset. -/
  | reset
deriving DecidableEq, Repr

/-- The state of the block. -/
structure State where
  /-- STATUS.DONE (R18). -/
  done : Bool
  /-- STATUS.ERR (R18, R116). -/
  err : Bool
  /-- STATUS.MODE (R34). -/
  mode : Mode
  /-- STATUS.DVALID (R18). -/
  dvalid : Bool
  /-- STATUS.TVALID (R18). -/
  tvalid : Bool
  /-- STATUS.ERRCODE (R115). -/
  errcode : ErrCode
  /-- PEND (R38): none exactly while STATUS.BUSY = 0 (notes/assumptions/5.md, DEDUCED). -/
  pend : Option Pending
  /-- CFG.DIGITS (R19). -/
  digits : BitVec 4
  /-- CFG.LOCK (R19). -/
  lock : Bool
  /-- IRQ_EN.EN (R20). -/
  irqEn : Bool
  /-- KEYLEN (R21). -/
  keylen : BitVec 7
  /-- COUNTER (R22). -/
  counter : Word
  /-- TLEN (R35). -/
  tlen : BitVec 64
  /-- MSG0..MSG15 (R28). -/
  msg : Vector Word 16
  /-- KEY0..KEY15 (R29). -/
  key : Vector Word 16
  /-- KSAVE (R36). -/
  ksave : Vector Byte 64
  /-- H[0..4] (R33). -/
  h : Digest
  /-- TRUNCV (R37). -/
  truncv : Word
  /-- TOKENV (R37). -/
  tokenv : Word
  /-- TSTR (R37). -/
  tstr : Vector Byte 12
  /-- The MODEL's own: whose step the current one is (notes/assumptions/3.md, DESIGN CHOICE). -/
  agent : Agent
  /-- The MODEL's own: the value the last read returned to the Host (notes/assumptions/4.md, DESIGN CHOICE). -/
  rdata : Word
  /-- The MODEL's own: what happens next, in order (notes/assumptions/1.md, DESIGN CHOICE). -/
  inputs : List Event
deriving DecidableEq, Repr

/-- STATUS.BUSY (R18, R38): a command is pending. -/
def State.busy (s : State) : Bool := s.pend.isSome

/-- Why the machine stops. -/
inductive Fault where
  /-- R44: a 1- or 2-byte access, or `off mod 4 ≠ 0`: "a fault, which is never a final state". Raised by the fetch of a
  bus access, and by RD and WR.IGNORED at such an offset. Safe: the model stops where the block answers a bus error
  (notes/assumptions/16.md). -/
  | busFault
deriving DecidableEq, Repr

/-- Why an instruction has no meaning. -/
inductive Refusal where
  /-- An instruction of the table that has no meaning yet, raised by its arm of `exec`. Safe. No arm raises it. -/
  | notModelled (mnemonic : String)
deriving DecidableEq, Repr

/-- What a step answers. -/
abbrev Result := Host.Outcome State Fault Refusal

/-- The state after reset (R42). "No state is left unspecified at reset"; the last three fields are the model's own. -/
def State.reset : State where
  done := false
  err := false
  mode := .idle
  dvalid := false
  tvalid := false
  errcode := .none
  pend := none
  digits := Config.digitsDefault
  lock := false
  irqEn := false
  keylen := 0
  counter := 0
  tlen := 0
  msg := Vector.replicate 16 0
  key := Vector.replicate 16 0
  ksave := Vector.replicate 64 0
  h := ⟨0, 0, 0, 0, 0⟩
  truncv := 0
  tokenv := 0
  tstr := Vector.replicate 12 0
  agent := .host
  rdata := 0
  inputs := []

end Sys2Proof.Machine
end

