-- ==== Sys2Proof/Machine/Operands.lean ====
section
/-! DEFINITION. Byte sequences, byte windows and word rotation: the operand forms of the block (00_scope.md R7, R8;
20_memory.md R49, R50; 30_encoding.md R59, R60). Byte order is decided here and nowhere else. -/

namespace Sys2Proof.Machine

/-- `BE_N(v)` (R7): byte i is `v div 256^(N-1-i)` modulo 256, the most significant byte first. -/
def beBytes (n v : Nat) : List Byte :=
  (List.range n).map fun i => BitVec.ofNat 8 (v / 256 ^ (n - 1 - i))

/-- `unBE(b)` (R7). -/
def unBE (b : List Byte) : Nat := b.foldl (fun acc x => acc * 256 + x.toNat) 0

/-- The word a byte sequence of four bytes reads as, big-endian (R49). -/
def wordOfBytes (b : List Byte) : Word := BitVec.ofNat 32 (unBE b)

/-- `b[i .. i+n)` (R7). -/
def slice (b : List Byte) (i n : Nat) : List Byte := (b.drop i).take n

/-- Word i of a byte sequence: bytes `4i .. 4i+3`, big-endian (R49). -/
def wordAt (b : List Byte) (i : Nat) : Word := wordOfBytes (slice b (4 * i) 4)

/-- `BE_4` of a word: its four bytes, bits 31:24 first (R49). -/
def wordBytes (w : Word) : List Byte :=
  [w.extractLsb' 24 8, w.extractLsb' 16 8, w.extractLsb' 8 8, w.extractLsb' 0 8]

/-- The 64 bytes of a window of 16 registers (R49): byte k is in word `k div 4`. -/
def windowBytes (v : Vector Word 16) : List Byte := v.toList.flatMap wordBytes

/-- `MSG.byte(0) ‖ … ‖ MSG.byte(63)` (R28). -/
def msgBytes (s : State) : List Byte := windowBytes s.msg

/-- `KEY.byte(0) ‖ … ‖ KEY.byte(63)` (R29). -/
def keyBytes (s : State) : List Byte := windowBytes s.key

/-- The tail `MSG.byte(0) ‖ … ‖ MSG.byte(n − 1)` of a final command (R83, R91). -/
def msgTail (n : BitVec 7) (s : State) : List Byte := (msgBytes s).take n.toNat

/-- The key `KEY.byte(0) ‖ … ‖ KEY.byte(KEYLEN − 1)` (R90, R103). -/
def keyOperand (s : State) : List Byte := (keyBytes s).take s.keylen.toNat

/-- The latch of MAC_START (R36, R90): `KSAVE[i] <- KEY.byte(i) if i < KEYLEN else 0x00`. -/
def latchedKey (s : State) : Vector Byte 64 :=
  Vector.ofFn fun i => if i.val < s.keylen.toNat then (keyBytes s).getD i.val 0 else 0

/-- `MSG[i] <- v` (R110). -/
def setWord (w : Vector Word 16) (i : BitVec 4) (v : Word) : Vector Word 16 := w.set i.toNat v i.isLt

/-- Register i of a window. -/
def getWord (w : Vector Word 16) (i : BitVec 4) : Word := w[i.toNat]'(i.isLt)

/-- `ROTL_n(x)` for 0 < n < 32 (R8). -/
def rotl (n : Nat) (x : Word) : Word := (x <<< n) ||| (x >>> (32 - n))

end Sys2Proof.Machine
end

