-- ==== Sys2Proof/Machine/Digest.lean ====
section
/-! DEFINITION. The Digest Engine as pure functions (40_digest.md section 1, R67 to R80). -/

namespace Sys2Proof.Machine

/-- The initial accumulator value (R67). -/
def iv : Digest := ⟨0x67452301, 0xEFCDAB89, 0x98BADCFE, 0x10325476, 0xC3D2E1F0⟩

/-- The round constant `K(t)` (R68). -/
def roundConstant (t : Nat) : Word :=
  if t < 20 then 0x5A827999
  else if t < 40 then 0x6ED9EBA1
  else if t < 60 then 0x8F1BBCDC
  else 0xCA62C1D6

/-- The phase function `f(t, b, c, d)` (R69): choose, parity, majority, parity. The spec supplies the four functions
"from general knowledge" (notes/assumptions/10.md). -/
def phase (t : Nat) (b c d : Word) : Word :=
  if t < 20 then (b &&& c) ||| (~~~b &&& d)
  else if t < 40 then b ^^^ c ^^^ d
  else if t < 60 then (b &&& c) ||| (b &&& d) ||| (c &&& d)
  else b ^^^ c ^^^ d

/-- The last words of the schedule, most recent first, extended by `k` words (R70): the word before last by 3, 8, 14 and
16 places stands at index 2, 7, 13 and 15. -/
def extendSchedule : Nat → List Word → List Word
  | 0, l => l
  | k + 1, l =>
    extendSchedule k (rotl 1 (l.getD 2 0 ^^^ l.getD 7 0 ^^^ l.getD 13 0 ^^^ l.getD 15 0) :: l)

/-- The message schedule `W[0..79]` of a block of 64 bytes (R70). -/
def schedule (m : List Byte) : List Word :=
  (extendSchedule 64 ((List.range 16).map (wordAt m)).reverse).reverse

/-- The working variables A, B, C, D, E (R39, R71). -/
structure Vars where
  a : Word
  b : Word
  c : Word
  d : Word
  e : Word
deriving DecidableEq, Repr

/-- One round (R72): all five assignments read the values before the round. -/
def roundStep (t : Nat) (w : Word) (v : Vars) : Vars where
  a := rotl 5 v.a + phase t v.b v.c v.d + v.e + w + roundConstant t
  b := v.a
  c := rotl 30 v.b
  d := v.c
  e := v.d

/-- Rounds `t, t + 1, …`, one for each word. -/
def rounds : Nat → List Word → Vars → Vars
  | _, [], v => v
  | t, w :: ws, v => rounds (t + 1) ws (roundStep t w v)

/-- The working variables at the start of a block (R71). -/
def startVars (h : Digest) : Vars := ⟨h.h0, h.h1, h.h2, h.h3, h.h4⟩

/-- "add the five working variables back into the five accumulator words" (R73). -/
def feedForward (h : Digest) (v : Vars) : Digest :=
  ⟨h.h0 + v.a, h.h1 + v.b, h.h2 + v.c, h.h3 + v.d, h.h4 + v.e⟩

/-- `Compress(H, M)` (R73), "total on every H and every 64-byte M"; every caller passes 64 bytes
(notes/assumptions/15.md). -/
def compress (h : Digest) (m : List Byte) : Digest := feedForward h (rounds 0 (schedule m) (startVars h))

/-- `Pad(T, L)` (R74). -/
def pad (t : List Byte) (len : BitVec 64) : List Byte :=
  if t.length ≤ 55 then
    t ++ [0x80] ++ List.replicate (55 - t.length) 0 ++ beBytes 8 len.toNat
  else
    t ++ [0x80] ++ List.replicate (63 - t.length) 0 ++ List.replicate 56 0 ++ beBytes 8 len.toNat

/-- Compress the first `k` blocks of 64 bytes of `b`, in order. -/
def compressBlocks (h : Digest) (b : List Byte) (k : Nat) : Digest :=
  (List.range k).foldl (fun acc j => compress acc (slice b (64 * j) 64)) h

/-- `Finish(H, T, L)` (R75). -/
def finish (h : Digest) (t : List Byte) (len : BitVec 64) : Digest :=
  if t.length = 64 then compressBlocks (compress h t) (pad [] len) ((pad [] len).length / 64)
  else compressBlocks h (pad t len) ((pad t len).length / 64)

/-- `L = (8 · n) mod 2^64`, the "total input bit-length" of n bytes (R76). -/
def bitLength (n : Nat) : BitVec 64 := BitVec.ofNat 64 (8 * n)

/-- `Ser(H)` (R78). -/
def ser (h : Digest) : List Byte :=
  wordBytes h.h0 ++ wordBytes h.h1 ++ wordBytes h.h2 ++ wordBytes h.h3 ++ wordBytes h.h4

/-- The digest state a sequence of 20 bytes serialises (R103: `H[i] <- unBE(mac[4i .. 4i+4))`). -/
def unSer (b : List Byte) : Digest := ⟨wordAt b 0, wordAt b 1, wordAt b 2, wordAt b 3, wordAt b 4⟩

/-- The digest state at the end of `SHA1(m)` (R77). -/
def sha1State (m : List Byte) : Digest :=
  finish (compressBlocks iv m (m.length / 64)) (m.drop (64 * (m.length / 64))) (bitLength m.length)

/-- `SHA1(m)` (R77). -/
def sha1 (m : List Byte) : List Byte := ser (sha1State m)

/-- `hexchar(v)` (R79); the ASCII codes are the spec's "from general knowledge" (notes/assumptions/10.md). -/
def hexChar (v : Byte) : Byte := if v ≤ 9 then 0x30 + v else 0x61 + (v - 10)

/-- `Hex(H)` (R79): the 40 characters, the high nibble first. -/
def hexBytes (h : Digest) : List Byte := (ser h).flatMap fun (x : Byte) => [hexChar (x >>> 4), hexChar (x &&& 0x0F)]

end Sys2Proof.Machine
end

