-- ==== Sys2Proof/Machine/Flags.lean ====
section
/-! DEFINITION. STATUS and the other words made of fields, and the interrupt line (10_state.md R18 to R21, R34;
60_exceptions.md R115, R122). -/

namespace Sys2Proof.Machine

/-- A flag as a word, 0 or 1. -/
def bitWord (b : Bool) : Word := if b then 1 else 0

/-- The value of MODE (R34). -/
def modeCode : Mode → Word
  | .idle => 0
  | .hash => 1
  | .mac => 2

/-- The value of ERRCODE (R115). -/
def errCode : ErrCode → Word
  | .none => 0
  | .illegalCmd => 1
  | .badSequence => 2
  | .badNbytes => 3
  | .badKeylen => 4
  | .busyWrite => 5
  | .badDigits => 6
  | .cfgLocked => 7

/-- The read value of STATUS (R18):
`BUSY | DONE << 1 | ERR << 2 | MODE << 4 | DVALID << 6 | TVALID << 7 | ERRCODE << 8`. -/
def statusWord (s : State) : Word :=
  bitWord s.busy ||| bitWord s.done <<< 1 ||| bitWord s.err <<< 2 ||| modeCode s.mode <<< 4 |||
    bitWord s.dvalid <<< 6 ||| bitWord s.tvalid <<< 7 ||| errCode s.errcode <<< 8

/-- The read value of CFG (R19): `DIGITS | LOCK << 31`. -/
def cfgWord (s : State) : Word := s.digits.zeroExtend 32 ||| bitWord s.lock <<< 31

/-- The interrupt line (R122): `irq = IRQ_EN.EN ∧ (STATUS.DONE ∨ STATUS.ERR)`. -/
def irq (s : State) : Bool := s.irqEn && (s.done || s.err)

end Sys2Proof.Machine
end

