-- ==== Sys2Proof/Machine/Ops.lean ====
section
/-! DEFINITION. The named operations every meaning is built from: recording an error, the checks of a write, accepting
and completing a command, reading a register, reset. -/

namespace Sys2Proof.Machine

/-! ## Errors (60_exceptions.md) -/

/-- `raise Error(code)` (R116), the block's only form of exception (R120): the first error's code is kept, ERR is
sticky, and "no other state changes". -/
def raiseError (c : ErrCode) (s : State) : State :=
  { s with errcode := if s.err then s.errcode else c, err := true }

/-- The return from an error (R121): what the completion of CLEAR does to ERR and ERRCODE. -/
def clearError (s : State) : State := { s with err := false, errcode := .none }

/-- `CmdCheck(v)` (R117): the first check that fails gives the code; if none fails, the command and its count. -/
def cmdCheck (v : Word) (s : State) : Except ErrCode Pending :=
  if s.busy then .error .busyWrite
  else match commandOf v with
    | none => .error .illegalCmd
    | some (op, n) =>
      if op = .hashUpdate ∧ s.mode = .idle then .error .badSequence
      else if op = .hashFinal ∧ s.mode ≠ .hash then .error .badSequence
      else if op = .macFinal ∧ s.mode ≠ .mac then .error .badSequence
      else if op = .hashUpdate ∧ n ≠ 64 then .error .badNbytes
      else if (op = .hashFinal ∨ op = .macFinal) ∧ 64 < n then .error .badNbytes
      else if (op = .macStart ∨ op = .tokenGen) ∧ 64 < s.keylen then .error .badKeylen
      else .ok ⟨op, n⟩

/-- `CfgCheck(v)` (R118). -/
def cfgCheck (v : Word) (s : State) : Option ErrCode :=
  if s.busy then some .busyWrite
  else if s.lock then some .cfgLocked
  else if v.extractLsb' 0 4 = 0 ∨ Config.digitsMax < v.extractLsb' 0 4 then some .badDigits
  else none

/-! ## Commands -/

/-- Acceptance (R105): `DONE`, `DVALID` and `TVALID` clear, PEND holds the command, BUSY is 1. -/
def acceptCommand (p : Pending) (s : State) : State :=
  { s with done := false, dvalid := false, tvalid := false, pend := some p }

/-- `BusWrite(0x004, v)` (R105): the checks, then the error or the acceptance. -/
def issueCommand (v : Word) (s : State) : State :=
  match cmdCheck v s with
  | .error e => raiseError e s
  | .ok p => acceptCommand p s

/-- The end of a completion step (R41): `STATUS.BUSY <- 0; STATUS.DONE <- 1`. -/
def finishCommand (s : State) : State := { s with pend := none, done := true }

/-- A command's two steps (R41, R105; notes/assumptions/3.md): the Host's is the write of its word to CMD, the Engine's
is its whole effect and then the end of the completion. -/
def runCommand (op : Op) (n : BitVec 7) (effect : State → State) (s : State) : Result :=
  match s.agent with
  | .host => .next (issueCommand (cmdWord op n) s)
  | .engine => .next (finishCommand (effect s))

/-- An illegal command word (R114): ILLEGAL_CMD, "unless BUSY = 1, which gives BUSY_WRITE first". -/
def rejectIllegal (s : State) : State := raiseError (if s.busy then .busyWrite else .illegalCmd) s

/-! ## Writes -/

/-- The one check of a write to IRQ_EN, KEYLEN, COUNTER, MSG or KEY (R117): BUSY = 1 gives BUSY_WRITE. -/
def writeUnlessBusy (s written : State) : State := if s.busy then raiseError .busyWrite s else written

/-! ## Reads -/

/-- A result register's value: 0 while its valid bit is 0 (R24, R25, R26, R30, R31). -/
def gated (valid : Bool) (v : Word) : Word := if valid then v else 0

/-- `H[i]`, i = 0..4 (R30). -/
def digestWord (h : Digest) (i : Nat) : Word := ([h.h0, h.h1, h.h2, h.h3, h.h4] : List Word).getD i 0

/-- `ReadValue(off)` (R104): the map of R15 with the read values of R16 to R31, 0 at an unmapped offset (R32). Defined
for the offsets that are multiples of 4. -/
def readValue (off : BitVec 12) (s : State) : Word :=
  if off = offId then Config.idValue
  else if off = offCmd then 0
  else if off = offStatus then statusWord s
  else if off = offCfg then cfgWord s
  else if off = offIrqEn then bitWord s.irqEn
  else if off = offKeylen then s.keylen.zeroExtend 32
  else if off = offCounter then s.counter
  else if off = offTlenLo then s.tlen.extractLsb' 0 32
  else if off = offTlenHi then s.tlen.extractLsb' 32 32
  else if off = offTrunc then gated s.tvalid s.truncv
  else if off = offToken then gated s.tvalid s.tokenv
  else if offTokstr ≤ off ∧ off < offTokstr + 12 then
    gated s.tvalid (wordAt s.tstr.toList ((off - offTokstr).toNat / 4))
  else if windowOf off = 1 then getWord s.msg (windowIndex off)
  else if windowOf off = 2 then 0
  else if offDigest ≤ off ∧ off < offDigest + 20 then
    gated s.dvalid (digestWord s.h ((off - offDigest).toNat / 4))
  else if offHex ≤ off ∧ off < offHex + 40 then
    gated s.dvalid (wordAt (hexBytes s.h) ((off - offHex).toNat / 4))
  else 0

/-! ## Reset -/

/-- The reset input (R128): "every piece of state takes its value in `10_state.md` rule R42". What is the Host's and the
environment's stays (notes/assumptions/9.md). -/
def resetBlock (s : State) : State :=
  { State.reset with agent := s.agent, rdata := s.rdata, inputs := s.inputs }

end Sys2Proof.Machine
end

