-- ==== Sys2Proof/Machine/DigestCommands.lean ====
section
/-! DEFINITION. HASH_INIT, HASH_UPDATE, HASH_FINAL (40_digest.md section 2). -/

namespace Sys2Proof.Machine

/-- The completion effect of HASH_INIT (R81). -/
def hashInitEffect (s : State) : State :=
  { s with h := iv, tlen := 0, ksave := Vector.replicate 64 0, mode := .hash }

/-- HASH_INIT (R81). -/
def execHashInit (s : State) : Result := runCommand .hashInit 0 hashInitEffect s

/-- The completion effect of HASH_UPDATE (R82). -/
def hashUpdateEffect (s : State) : State :=
  { s with h := compress s.h (msgBytes s), tlen := s.tlen + 64 }

/-- HASH_UPDATE (R82). -/
def execHashUpdate (n : BitVec 7) (s : State) : Result := runCommand .hashUpdate n hashUpdateEffect s

/-- The completion effect of HASH_FINAL n (R83): the length field uses TLEN after the addition. -/
def hashFinalEffect (n : BitVec 7) (s : State) : State :=
  { s with
    tlen := s.tlen + n.zeroExtend 64
    h := finish s.h (msgTail n s) (8 * (s.tlen + n.zeroExtend 64))
    mode := .idle
    dvalid := true }

/-- HASH_FINAL n (R83). -/
def execHashFinal (n : BitVec 7) (s : State) : Result := runCommand .hashFinal n (hashFinalEffect n) s

end Sys2Proof.Machine
end

