-- ==== Sys2Proof/Machine/HostAccess.lean ====
section
/-! DEFINITION. The register accesses: RD and the eight writes (43_host_access.md sections 1 and 2). -/

namespace Sys2Proof.Machine

/-- RD (R104): the value goes to the Host, no state of the block changes; a misaligned offset is a bus fault (R44). -/
def execRd (off : BitVec 12) (s : State) : Result :=
  if off.extractLsb' 0 2 ≠ 0 then .fault .busFault else .next { s with rdata := readValue off s }

/-- WR.CMD (R105). -/
def execWrCmd (v : Word) (s : State) : Result := .next (issueCommand v s)

/-- WR.CFG (R106): `DIGITS <- v[3:0]`, `LOCK <- v[31]`. -/
def execWrCfg (v : Word) (s : State) : Result :=
  .next (match cfgCheck v s with
    | some e => raiseError e s
    | none => { s with digits := v.extractLsb' 0 4, lock := v.getLsbD 31 })

/-- WR.IRQ_EN (R107): `EN <- v[0]`. -/
def execWrIrqEn (v : Word) (s : State) : Result :=
  .next (writeUnlessBusy s { s with irqEn := v.getLsbD 0 })

/-- WR.KEYLEN (R108): `KEYLEN <- v[6:0]`; a value above 64 is stored. -/
def execWrKeylen (v : Word) (s : State) : Result :=
  .next (writeUnlessBusy s { s with keylen := v.extractLsb' 0 7 })

/-- WR.COUNTER (R109). -/
def execWrCounter (v : Word) (s : State) : Result :=
  .next (writeUnlessBusy s { s with counter := v })

/-- WR.MSG (R110). -/
def execWrMsg (i : BitVec 4) (v : Word) (s : State) : Result :=
  .next (writeUnlessBusy s { s with msg := setWord s.msg i v })

/-- WR.KEY (R111). -/
def execWrKey (i : BitVec 4) (v : Word) (s : State) : Result :=
  .next (writeUnlessBusy s { s with key := setWord s.key i v })

/-- WR.IGNORED (R112): "No state changes and no error is raised, whether or not BUSY = 1"; a misaligned offset is a bus
fault (R44). -/
def execWrIgnored (off : BitVec 12) (_v : Word) (s : State) : Result :=
  if off.extractLsb' 0 2 ≠ 0 then .fault .busFault else .next s

end Sys2Proof.Machine
end

