-- ==== Sys2Proof/Machine/Authenticator.lean ====
section
/-! DEFINITION. The Keyed Authenticator as a pure function (41_authenticator.md section 1, R86 to R89). -/

namespace Sys2Proof.Machine

/-- A key pad (R86): the constant XORed with the key byte at each position the key has, the constant past it. -/
def keyPad (c : Byte) (k : List Byte) : List Byte :=
  (List.range 64).map fun i => if i < k.length then c ^^^ k.getD i 0 else c

/-- `IPAD(k)` (R86). -/
def ipad (k : List Byte) : List Byte := keyPad 0x36 k

/-- `OPAD(k)` (R86). -/
def opad (k : List Byte) : List Byte := keyPad 0x5C k

/-- `HMAC(k, m)` (R88), for keys of at most 64 bytes. -/
def hmac (k m : List Byte) : List Byte := sha1 (opad k ++ sha1 (ipad k ++ m))

end Sys2Proof.Machine
end

