-- ==== Sys2Proof/Machine/MacCommands.lean ====
section
/-! DEFINITION. MAC_START and MAC_FINAL (41_authenticator.md section 2). -/

namespace Sys2Proof.Machine

/-- The completion effect of MAC_START (R90). -/
def macStartEffect (s : State) : State :=
  { s with
    ksave := latchedKey s
    h := compress iv (ipad ((latchedKey s).toList.take s.keylen.toNat))
    tlen := 0
    mode := .mac }

/-- MAC_START (R90). -/
def execMacStart (s : State) : Result := runCommand .macStart 0 macStartEffect s

/-- The state of the inner digest that MAC_FINAL n finishes (R91 `Hin`). -/
def innerDigest (n : BitVec 7) (s : State) : Digest :=
  finish s.h (msgTail n s) (8 * (64 + (s.tlen + n.zeroExtend 64)))

/-- The completion effect of MAC_FINAL n (R91): `OPAD'(KSAVE)` is the outer pad over all 64 latched bytes, and the outer
hash always has 84 bytes, 672 bits. -/
def macFinalEffect (n : BitVec 7) (s : State) : State :=
  { s with
    tlen := s.tlen + n.zeroExtend 64
    h := finish (compress iv (opad s.ksave.toList)) (ser (innerDigest n s)) 672
    ksave := Vector.replicate 64 0
    mode := .idle
    dvalid := true }

/-- MAC_FINAL n (R91). -/
def execMacFinal (n : BitVec 7) (s : State) : Result := runCommand .macFinal n (macFinalEffect n) s

end Sys2Proof.Machine
end

