-- ==== Sys2Proof/Machine/SystemCommands.lean ====
section
/-! DEFINITION. CLEAR and the illegal command words (43_host_access.md section 3). -/

namespace Sys2Proof.Machine

/-- The completion effect of CLEAR (R113): "CFG (DIGITS and LOCK) and IRQ_EN are not changed". -/
def clearEffect (s : State) : State :=
  clearError
    { s with
      h := ⟨0, 0, 0, 0, 0⟩
      tlen := 0
      msg := Vector.replicate 16 0
      key := Vector.replicate 16 0
      ksave := Vector.replicate 64 0
      keylen := 0
      counter := 0
      truncv := 0
      tokenv := 0
      tstr := Vector.replicate 12 0
      mode := .idle }

/-- CLEAR (R113). -/
def execClear (s : State) : Result := runCommand .clear 0 clearEffect s

/-- ILLEGAL_OP0 (R114): the word is not kept ("the offending word is not kept", R115). -/
def execIllegalOp0 (_w : Word) (s : State) : Result := .next (rejectIllegal s)

/-- ILLEGAL_OP8_15 (R114). -/
def execIllegalOp8To15 (_w : Word) (s : State) : Result := .next (rejectIllegal s)

/-- ILLEGAL_RESERVED (R114). -/
def execIllegalReserved (_w : Word) (s : State) : Result := .next (rejectIllegal s)

end Sys2Proof.Machine
end

