-- ==== Sys2Proof/Machine/Token.lean ====
section
/-! DEFINITION. The Counter-Token Generator as a pure function (42_token.md section 1, R94 to R100). -/

namespace Sys2Proof.Machine

/-- `CtrField(c)` (R94): `BE_8(zext_64(c))`. -/
def ctrField (c : Word) : List Byte := beBytes 8 (c.zeroExtend 64).toNat

/-- `Offset(mac)` (R95): the low 4 bits of the MAC's final byte. -/
def truncOffset (mac : List Byte) : Nat := (mac.getD 19 0 &&& 0x0F).toNat

/-- `Trunc(mac)` (R96). -/
def truncate (mac : List Byte) : Word := wordOfBytes (slice mac (truncOffset mac) 4) &&& 0x7FFFFFFF

/-- `Code(S, D)` (R97): `S mod 10^D`. -/
def code (v : Word) (d : Nat) : Word := BitVec.ofNat 32 (v.toNat % 10 ^ d)

/-- `Str(v, D)` (R98): character j is `0x30 + ((v div 10^(D − 1 − j)) mod 10)`; the ASCII codes are the spec's "from
general knowledge" (notes/assumptions/10.md). -/
def decimalString (v : Word) (d : Nat) : List Byte :=
  (List.range d).map fun j => BitVec.ofNat 8 (0x30 + v.toNat / 10 ^ (d - 1 - j) % 10)

/-- The result `(mac, S, v, s)` of the generator (R100). -/
structure TokenResult where
  mac : List Byte
  trunc : Word
  value : Word
  str : List Byte
deriving DecidableEq, Repr

/-- `GenerateCode(k, c, D)` (R100). -/
def generateCode (k : List Byte) (c : Word) (d : Nat) : TokenResult :=
  let mac := hmac k (ctrField c)
  let t := truncate mac
  let v := code t d
  ⟨mac, t, v, decimalString v d⟩

/-- `TSTR[j] <- s[j] for j < D; TSTR[j] <- 0x00 for D <= j < 12` (R103). -/
def tokenBuffer (str : List Byte) : Vector Byte 12 := Vector.ofFn fun j => str.getD j.val 0

end Sys2Proof.Machine
end

