-- ==== Sys2Proof/Machine/TokenCommand.lean ====
section
/-! DEFINITION. TOKEN_GEN (42_token.md section 2). -/

namespace Sys2Proof.Machine

/-- The result of the generator on KEY, KEYLEN, COUNTER and CFG.DIGITS (R103). -/
def tokenOf (s : State) : TokenResult := generateCode (keyOperand s) s.counter s.digits.toNat

/-- The completion effect of TOKEN_GEN (R103). -/
def tokenGenEffect (s : State) : State :=
  { s with
    h := unSer (tokenOf s).mac
    truncv := (tokenOf s).trunc
    tokenv := (tokenOf s).value
    tstr := tokenBuffer (tokenOf s).str
    tlen := 8
    ksave := Vector.replicate 64 0
    mode := .idle
    dvalid := true
    tvalid := true }

/-- TOKEN_GEN (R103). -/
def execTokenGen (s : State) : Result := runCommand .tokenGen 0 tokenGenEffect s

end Sys2Proof.Machine
end

