-- ==== Sys2Proof/Machine/Dispatch.lean ====
section
/-! DEFINITION. One arm for each instruction. -/

namespace Sys2Proof.Machine

def exec (i : Instr) (s : State) : Host.Outcome State Fault Refusal :=
  match i with
  | .hashInit => Sys2Proof.Machine.execHashInit s
  | .hashUpdate n => Sys2Proof.Machine.execHashUpdate n s
  | .hashFinal n => Sys2Proof.Machine.execHashFinal n s
  | .macStart => Sys2Proof.Machine.execMacStart s
  | .macFinal n => Sys2Proof.Machine.execMacFinal n s
  | .tokenGen => Sys2Proof.Machine.execTokenGen s
  | .clear => Sys2Proof.Machine.execClear s
  | .illegalOp0 w => Sys2Proof.Machine.execIllegalOp0 w s
  | .illegalOp8To15 w => Sys2Proof.Machine.execIllegalOp8To15 w s
  | .illegalReserved w => Sys2Proof.Machine.execIllegalReserved w s
  | .rd off => Sys2Proof.Machine.execRd off s
  | .wrCmd v => Sys2Proof.Machine.execWrCmd v s
  | .wrCfg v => Sys2Proof.Machine.execWrCfg v s
  | .wrIrqEn v => Sys2Proof.Machine.execWrIrqEn v s
  | .wrKeylen v => Sys2Proof.Machine.execWrKeylen v s
  | .wrCounter v => Sys2Proof.Machine.execWrCounter v s
  | .wrMsg k v => Sys2Proof.Machine.execWrMsg k v s
  | .wrKey k v => Sys2Proof.Machine.execWrKey k v s
  | .wrIgnored off v => Sys2Proof.Machine.execWrIgnored off v s

end Sys2Proof.Machine
end

