-- ==== Sys2Proof/Machine/Fetch.lean ====
section
/-! DEFINITION. Who acts next and on what: the events of `State.inputs` are taken in order (00_scope.md R10;
20_memory.md R43, R44, R52; 60_exceptions.md R119; 70_reset_and_hazards.md R128). -/

namespace Sys2Proof.Machine

/-- What the next step does. -/
inductive Fetched where
  /-- It runs an instruction in this state. -/
  | run (i : Instr) (s : State)
  /-- It runs none, and this is the state after it. -/
  | quiet (s : State)
  /-- It is an access the block answers with a bus error (R44). -/
  | busFault
deriving DecidableEq, Repr

/-- The Host's access: its instruction, with the Host as the agent, or the bus fault "before all of these" (R117). -/
def fetchAccess (a : Access) (s : State) : Fetched :=
  match decode a with
  | .ok i => .run i { s with agent := .host }
  | .error _ => .busFault

/-- The Engine's step: the command in PEND, with the Engine as the agent (R41). Enabled exactly when BUSY = 1; where it
is not enabled nothing happens (notes/assumptions/2.md). -/
def fetchEngine (s : State) : Fetched :=
  match s.pend with
  | some p => .run (commandInstr p.op p.nbytes) { s with agent := .engine }
  | none => .quiet s

/-- `off = addr − P_BASE` for an address inside the window; none where "An access outside the window does not reach the
block" (R43, R44; notes/assumptions/6.md). -/
def windowAccess (p : PlatformAccess) : Option Access :=
  if Config.pBase ≤ p.addr ∧ p.addr < Config.pBase + Config.windowBytes then
    some (.bus ⟨p.dir, p.size, BitVec.ofNat 12 (p.addr - Config.pBase), p.data⟩)
  else none

/-- The next event. When none is left the Engine completes what is pending (weak fairness, R10), and an idle block
"keeps all state" (R127; notes/assumptions/2.md). -/
def fetch (s : State) : Fetched :=
  match s.inputs with
  | [] => fetchEngine s
  | .access a :: rest => fetchAccess a { s with inputs := rest }
  | .platform p :: rest =>
    match windowAccess p with
    | some a => fetchAccess a { s with inputs := rest }
    | none => .quiet { s with inputs := rest }
  | .engine :: rest => fetchEngine { s with inputs := rest }
  | .reset :: rest => .quiet (resetBlock { s with inputs := rest })

end Sys2Proof.Machine
end

