-- ==== Sys2Proof/Machine/Step.lean ====
section
/-! DEFINITION. One step of the machine, and where a step finds its instruction. -/

namespace Sys2Proof.Machine

/-- One step: one Host access, one completion of the Engine, or one reset (00_scope.md R10, R119). -/
def step (s : State) : Host.Outcome State Fault Refusal :=
  match fetch s with
  | .run i t => exec i t
  | .quiet t => .next t
  | .busFault => .fault .busFault

/-- The state in which the very next step is the Host's access that a table word stands for
(notes/assumptions/7.md). -/
def State.withFetchWord (s : State) (nbits w : Nat) : State :=
  { s with inputs := .access (tableAccess nbits w) :: s.inputs }

end Sys2Proof.Machine
end

