-- ==== Sys2Proof/Machine/Assembler.lean ====
section
/-! DEFINITION. The assembly notation (30_encoding.md R65) and the pseudo-instructions (R66), as accesses and events. -/

namespace Sys2Proof.Machine

/-- The register names of R65. -/
inductive Reg where
  | id
  | cmd
  | status
  | cfg
  | irqEn
  | keylen
  | counter
  | tlenLo
  | tlenHi
  | trunc
  | token
  | tokstr (j : Fin 3)
  | msg (i : BitVec 4)
  | key (i : BitVec 4)
  | digest (i : Fin 5)
  | hex (j : Fin 10)
deriving DecidableEq, Repr

/-- `offset(REG)` (R15). -/
def regOffset : Reg → BitVec 12
  | .id => offId
  | .cmd => offCmd
  | .status => offStatus
  | .cfg => offCfg
  | .irqEn => offIrqEn
  | .keylen => offKeylen
  | .counter => offCounter
  | .tlenLo => offTlenLo
  | .tlenHi => offTlenHi
  | .trunc => offTrunc
  | .token => offToken
  | .tokstr j => offTokstr + BitVec.ofNat 12 (4 * j.val)
  | .msg i => windowOffset offMsg i
  | .key i => windowOffset offKey i
  | .digest i => offDigest + BitVec.ofNat 12 (4 * i.val)
  | .hex j => offHex + BitVec.ofNat 12 (4 * j.val)

/-- One line of assembly (R65). -/
inductive Asm where
  | rd (r : Reg)
  | wr (r : Reg) (v : Word)
  | hashInit
  | hashUpdate
  | hashFinal (n : BitVec 7)
  | macStart
  | macFinal (n : BitVec 7)
  | tokenGen
  | clear
deriving DecidableEq, Repr

/-- The access a line of assembly means (R65). -/
def assemble : Asm → Access
  | .rd r => busRead (regOffset r)
  | .wr r v => busWrite (regOffset r) v
  | .hashInit => busWrite offCmd 0x00000001
  | .hashUpdate => busWrite offCmd 0x00004002
  | .hashFinal n => busWrite offCmd (0x00000003 + (n.zeroExtend 32 <<< 8))
  | .macStart => busWrite offCmd 0x00000004
  | .macFinal n => busWrite offCmd (0x00000005 + (n.zeroExtend 32 <<< 8))
  | .tokenGen => busWrite offCmd 0x00000006
  | .clear => busWrite offCmd 0x00000007

/-- A line of assembly as an event. -/
def line (a : Asm) : Event := .access (assemble a)

/-- `wait` (R66): `polls` reads of STATUS that still return BUSY = 1, the completion, and the read that ends the loop. -/
def waitEvents (polls : Nat) : List Event :=
  List.replicate polls (line (.rd .status)) ++ [.engine, line (.rd .status)]

/-- Word i of a byte sequence of any length, "missing bytes of the last word 0x00" (R66). -/
def paddedWordAt (b : List Byte) (i : Nat) : Word := wordAt (b ++ List.replicate 3 0) i

/-- `ld.msg b` (R66). -/
def ldMsg (b : List Byte) : List Event :=
  (List.range ((b.length + 3) / 4)).map fun i => line (.wr (.msg (BitVec.ofNat 4 i)) (paddedWordAt b i))

/-- `ld.key k` (R66). -/
def ldKey (k : List Byte) : List Event :=
  (List.range ((k.length + 3) / 4)).map (fun i => line (.wr (.key (BitVec.ofNat 4 i)) (paddedWordAt k i))) ++
    [line (.wr .keylen (BitVec.ofNat 32 k.length))]

/-- The full blocks of b, each loaded and absorbed (R66); the wait of block j takes `polls j` polls. -/
def updateEvents (polls : Nat → Nat) (b : List Byte) : List Event :=
  (List.range (b.length / 64)).flatMap fun j =>
    ldMsg (slice b (64 * j) 64) ++ [line .hashUpdate] ++ waitEvents (polls j)

/-- The trailing bytes of b, `len(b) mod 64` of them. -/
def tailBytes (b : List Byte) : List Byte := b.drop (64 * (b.length / 64))

/-- `hash b` (R66). The latency of a command may differ from one to the next (R137), so each wait has a count of polls
of its own: `polls w` is that of wait w, the waits counted from 0 in program order. -/
def hashEvents (polls : Nat → Nat) (b : List Byte) : List Event :=
  [line .hashInit] ++ waitEvents (polls 0) ++ updateEvents (fun j => polls (j + 1)) b ++ ldMsg (tailBytes b) ++
    [line (.hashFinal (BitVec.ofNat 7 (b.length % 64)))] ++ waitEvents (polls (b.length / 64 + 1))

/-- `mac k, b` (R66), its waits counted as in `hashEvents`. -/
def macEvents (polls : Nat → Nat) (k b : List Byte) : List Event :=
  ldKey k ++ [line .macStart] ++ waitEvents (polls 0) ++ updateEvents (fun j => polls (j + 1)) b ++
    ldMsg (tailBytes b) ++ [line (.macFinal (BitVec.ofNat 7 (b.length % 64)))] ++
    waitEvents (polls (b.length / 64 + 1))

/-- `token k, c` (R66), with its one wait. -/
def tokenEvents (polls : Nat) (k : List Byte) (c : Word) : List Event :=
  ldKey k ++ [line (.wr .counter c), line .tokenGen] ++ waitEvents polls

end Sys2Proof.Machine
end

