-- ==== Sys2Proof/Safety.lean ====
section
/-! DEFINITION. What counts as a safe run: the invariant of the block, the two stream predicates a run of commands
keeps, and when two states differ in the key only. -/

namespace Sys2Proof.Machine

/-- The state of a `next` answer. -/
def nextState (r : Result) : Option State :=
  match r with
  | .next s => some s
  | .fault _ => none
  | .refused _ => none

/-- `k` steps, stopping at the first fault: the run of `Sys2Proof.core`, over the machine's own step. -/
def runSteps : Nat → State → Result
  | 0, s => .next s
  | k + 1, s =>
    match step s with
    | .next t => runSteps k t
    | .fault f => .fault f
    | .refused r => .refused r

/-- What CmdCheck (R117) established about the pending command, and still holds while BUSY = 1 (R38). -/
def PendingLegal (p : Pending) (s : State) : Prop :=
  match p.op with
  | .hashInit => p.nbytes = 0
  | .hashUpdate => p.nbytes = 64 ∧ s.mode ≠ .idle
  | .hashFinal => p.nbytes ≤ 64 ∧ s.mode = .hash
  | .macStart => p.nbytes = 0 ∧ s.keylen ≤ 64
  | .macFinal => p.nbytes ≤ 64 ∧ s.mode = .mac
  | .tokenGen => p.nbytes = 0 ∧ s.keylen ≤ 64
  | .clear => p.nbytes = 0

/-- The invariant of the block. -/
structure Inv (s : State) : Prop where
  /-- ERRCODE is "0 when ERR = 0" (R18), and only then. -/
  errcode_none : s.errcode = .none ↔ s.err = false
  /-- "DIGITS always holds a legal value" (R19). -/
  digits_legal : 1 ≤ s.digits ∧ s.digits ≤ 10
  /-- A pending command has not completed (R18). -/
  busy_not_done : s.busy = true → s.done = false
  /-- A valid result belongs to the last accepted command, which has completed (R18). -/
  dvalid_done : s.dvalid = true → s.done = true
  /-- Intermediate accumulator values of an open stream are hidden (R123). -/
  dvalid_idle : s.dvalid = true → s.mode = .idle
  /-- TOKEN_GEN sets both (R103); acceptance clears both (R105). -/
  tvalid_dvalid : s.tvalid = true → s.dvalid = true
  /-- The latched key exists only while a MAC stream is open (R36). -/
  ksave_zero : s.mode ≠ .mac → s.ksave = Vector.replicate 64 0
  /-- "bit 31 of TRUNCV is always 0" (R24). -/
  truncv_top : s.truncv.getLsbD 31 = false
  /-- "TOKENV ≤ 2^31 − 1" (R25). -/
  tokenv_small : s.tokenv.toNat < 2 ^ 31
  /-- TSTR holds decimal digits and 0x00 (R26, R98). -/
  tstr_digits : ∀ x ∈ s.tstr.toList, x = 0 ∨ (0x30 ≤ x ∧ x ≤ 0x39)
  /-- PEND is a command CmdCheck let through (R38, R41). -/
  pend_legal : ∀ p, s.pend = some p → PendingLegal p s

/-- A plain hash stream is open and has absorbed `m`, whole blocks (R81, R82, R84). -/
structure HashStream (m : List Byte) (s : State) : Prop where
  mode_hash : s.mode = .hash
  whole_blocks : m.length % 64 = 0
  absorbed : s.h = compressBlocks iv m (m.length / 64)
  counted : s.tlen = BitVec.ofNat 64 m.length

/-- A keyed stream under `k` is open and has absorbed `m`, whole blocks (R90, R82, R92). -/
structure MacStream (k m : List Byte) (s : State) : Prop where
  mode_mac : s.mode = .mac
  key_short : k.length ≤ 64
  whole_blocks : m.length % 64 = 0
  absorbed : s.h = compressBlocks (compress iv (ipad k)) m (m.length / 64)
  counted : s.tlen = BitVec.ofNat 64 m.length
  latched : s.ksave.toList = k ++ List.replicate (64 - k.length) 0

/-- The two states agree in everything but the secret: KEY and KSAVE (R29, R36, R123). -/
def AgreeButKey (s t : State) : Prop := t = { s with key := t.key, ksave := t.ksave }

end Sys2Proof.Machine
end

