-- ==== Sys2Proof/Certificates/Slice0/Obligations.lean ====
section
/-! DEFINITION. The statements about the block, from the numbered rules of the spec. `raiseError` is rule R116 and has a
statement of its own (`RaiseErrorKeepsFirstCode`); a next state written as a record update says every field: what the
update does not name is unchanged. -/

open Sys2Proof Sys2Proof.Machine

/-! ## Encoding and decoding -/

/-- Every well-formed instruction is read back from the access it is written as (30_encoding.md sections 1 to 3). -/
def Obligations.DecodeEncodeRoundTrip : Prop :=
  ∀ i : Instr, i.wf = true → decode (encode i) = .ok i

/-- The other direction: what decodes is well formed and is written as the very same access; a read sends no data
(R58), so its data is not kept. -/
def Obligations.EncodeDecodeRoundTrip : Prop :=
  (∀ w : Word, (decodeCmd w).wf = true ∧ encode (decodeCmd w) = .cmd w) ∧
  (∀ (b : BusAccess) (i : Instr), decodeBus b = .ok i →
    i.wf = true ∧ encode i = .bus (if b.dir = .read then { b with data := 0 } else b))

/-- R64, on the raw bits of the word. -/
def Obligations.CommandWordDecoding : Prop :=
  ∀ v : Word,
    let op := v.extractLsb' 0 4
    let n := v.extractLsb' 8 7
    let illegal := op = 0 ∨ 8 ≤ op ∨ v.extractLsb' 4 4 ≠ 0 ∨ v.extractLsb' 15 17 ≠ 0 ∨
      (op ≠ 2 ∧ op ≠ 3 ∧ op ≠ 5 ∧ n ≠ 0)
    (illegal → commandOf v = none) ∧
    (¬ illegal → ∃ c : Op, opCode c = op ∧ commandOf v = some (c, n) ∧ decodeCmd v = commandInstr c n)

/-- Exact words of R61, one or more for each command, an illegal word of each kind, and an access of each BUS row. -/
def Obligations.SampleWordsDecode : Prop :=
  decodeCmd 0x00000001 = .hashInit ∧ decodeCmd 0x00004002 = .hashUpdate 64 ∧
  decodeCmd 0x00000003 = .hashFinal 0 ∧ decodeCmd 0x00004003 = .hashFinal 64 ∧
  decodeCmd 0x00000004 = .macStart ∧ decodeCmd 0x00000805 = .macFinal 8 ∧
  decodeCmd 0x00000006 = .tokenGen ∧ decodeCmd 0x00000007 = .clear ∧
  decodeCmd 0x00000000 = .illegalOp0 0 ∧ decodeCmd 0x0000000F = .illegalOp8To15 0x0F ∧
  decodeCmd 0x00004001 = .illegalReserved 0x4001 ∧
  decodeBus ⟨.read, 4, 0x00C, 0⟩ = .ok (.rd 0x00C) ∧
  decodeBus ⟨.write, 4, 0x004, 1⟩ = .ok (.wrCmd 1) ∧
  decodeBus ⟨.write, 4, 0x07C, 9⟩ = .ok (.wrMsg 15 9) ∧
  decodeBus ⟨.write, 4, 0x080, 9⟩ = .ok (.wrKey 0 9) ∧
  decodeBus ⟨.write, 4, 0x0C0, 9⟩ = .ok (.wrIgnored 0x0C0 9)

/-- R62: one read, one write for each writable register, and every other write ignored. -/
def Obligations.BusAccessDecoding : Prop :=
  (∀ (off : BitVec 12) (d : Word), off.toNat % 4 = 0 → decodeBus ⟨.read, 4, off, d⟩ = .ok (.rd off)) ∧
  (∀ v : Word, decodeBus ⟨.write, 4, 0x004, v⟩ = .ok (.wrCmd v)) ∧
  (∀ v : Word, decodeBus ⟨.write, 4, 0x00C, v⟩ = .ok (.wrCfg v)) ∧
  (∀ v : Word, decodeBus ⟨.write, 4, 0x010, v⟩ = .ok (.wrIrqEn v)) ∧
  (∀ v : Word, decodeBus ⟨.write, 4, 0x014, v⟩ = .ok (.wrKeylen v)) ∧
  (∀ v : Word, decodeBus ⟨.write, 4, 0x018, v⟩ = .ok (.wrCounter v)) ∧
  (∀ (i : BitVec 4) (v : Word),
    decodeBus ⟨.write, 4, BitVec.ofNat 12 (0x040 + 4 * i.toNat), v⟩ = .ok (.wrMsg i v)) ∧
  (∀ (i : BitVec 4) (v : Word),
    decodeBus ⟨.write, 4, BitVec.ofNat 12 (0x080 + 4 * i.toNat), v⟩ = .ok (.wrKey i v)) ∧
  (∀ (off : BitVec 12) (v : Word), off.toNat % 4 = 0 →
    off ≠ 0x004 → off ≠ 0x00C → off ≠ 0x010 → off ≠ 0x014 → off ≠ 0x018 →
    ¬ (0x040 ≤ off ∧ off ≤ 0x0BC) → decodeBus ⟨.write, 4, off, v⟩ = .ok (.wrIgnored off v))

/-! ## The step -/

/-- A step runs the decoded instruction: the Host's access with the Host as the agent, whether it names an offset or a
platform address, and past the event in the list of what happens next. The list and the agent are the model's
(notes/assumptions/1.md, notes/assumptions/3.md). -/
def Obligations.StepRunsHostAccess : Prop :=
  (∀ (s : State) (a : Access) (rest : List Event) (i : Instr),
    s.inputs = .access a :: rest → decode a = .ok i →
    step s = exec i { s with inputs := rest, agent := .host }) ∧
  (∀ (s : State) (dir : Dir) (off : BitVec 12) (v : Word) (rest : List Event) (i : Instr),
    s.inputs = .platform ⟨dir, 4, Config.pBase + off.toNat, v⟩ :: rest →
    decode (.bus ⟨dir, 4, off, v⟩) = .ok i →
    step s = exec i { s with inputs := rest, agent := .host })

/-- The Engine's step, in every state: with BUSY = 1 it applies the pending command's whole effect, clears BUSY, sets
DONE and raises no error (R41). Two clauses are the model's choice (notes/assumptions/2.md): an empty list of events gives
the step to the Engine, and an Engine event while BUSY = 0 does nothing. -/
def Obligations.EngineCompletesPendingCommand : Prop :=
  ∀ (s : State) (rest : List Event),
    s.inputs = .engine :: rest ∨ (s.inputs = [] ∧ rest = []) →
    (s.busy = false → step s = .next { s with inputs := rest }) ∧
    (∀ p : Pending, s.pend = some p →
      let e := { s with inputs := rest, agent := .engine }
      step s = exec (commandInstr p.op p.nbytes) e ∧
      ∃ t, step s = .next t ∧
        t = { (match p.op with
          | .hashInit => hashInitEffect e
          | .hashUpdate => hashUpdateEffect e
          | .hashFinal => hashFinalEffect p.nbytes e
          | .macStart => macStartEffect e
          | .macFinal => macFinalEffect p.nbytes e
          | .tokenGen => tokenGenEffect e
          | .clear => clearEffect e) with pend := none, done := true } ∧
        t.busy = false ∧ (t.err = true → s.err = true))

/-- A sub-word or misaligned access is a bus fault, before anything else; every other access in the window is performed;
an access outside the window does not reach the block (R44). The model's own: an access by address is judged by where it
starts (notes/assumptions/6.md), and every size other than 4 is a bus fault, not 1 and 2 alone
(notes/assumptions/16.md). -/
def Obligations.BusFaultOnSubWordOrMisaligned : Prop :=
  (∀ (s : State) (b : BusAccess) (rest : List Event), s.inputs = .access (.bus b) :: rest →
    (b.size ≠ 4 ∨ b.off.toNat % 4 ≠ 0 → step s = .fault .busFault) ∧
    (b.size = 4 → b.off.toNat % 4 = 0 → ∃ t, step s = .next t)) ∧
  (∀ (s : State) (p : PlatformAccess) (rest : List Event), s.inputs = .platform p :: rest →
    (p.addr < Config.pBase ∨ Config.pBase + 4096 ≤ p.addr → step s = .next { s with inputs := rest }) ∧
    (∀ off : BitVec 12, p.addr = Config.pBase + off.toNat → p.size ≠ 4 ∨ off.toNat % 4 ≠ 0 →
      step s = .fault .busFault))

/-- Weak fairness (R10): a pending command does not wait for ever. Whatever the Host does, within one step for each event
still to come and one more, the block is no longer busy, or the Host's access has been answered with a bus error. That the
Engine takes the step when no event is left is the model's choice (notes/assumptions/2.md). -/
def Obligations.PendingCommandCompletes : Prop :=
  ∀ s : State, s.busy = true →
    ∃ k, k ≤ s.inputs.length + 1 ∧
      (runSteps k s = .fault .busFault ∨ ∃ t : State, runSteps k s = .next t ∧ t.busy = false)

/-- The reset values, piece by piece (R42), and that the reset input, at any time, also while BUSY = 1, gives every piece
of state of the block its value (R128). That it keeps the fields that are not the block's (`agent`, `rdata` and what is
still to come of `inputs`) is the model's choice (notes/assumptions/9.md). -/
def Obligations.ResetInputAndResetValues : Prop :=
  (∀ (s : State) (rest : List Event), s.inputs = .reset :: rest →
    step s = .next { State.reset with agent := s.agent, rdata := s.rdata, inputs := rest }) ∧
  State.reset.busy = false ∧ State.reset.done = false ∧ State.reset.err = false ∧
  State.reset.dvalid = false ∧ State.reset.tvalid = false ∧ State.reset.mode = .idle ∧
  State.reset.errcode = .none ∧ State.reset.pend = none ∧ State.reset.digits = 6 ∧ State.reset.lock = false ∧
  State.reset.irqEn = false ∧ State.reset.keylen = 0 ∧ State.reset.counter = 0 ∧ State.reset.tlen = 0 ∧
  msgBytes State.reset = List.replicate 64 0 ∧ keyBytes State.reset = List.replicate 64 0 ∧
  State.reset.ksave.toList = List.replicate 64 0 ∧ State.reset.h = ⟨0, 0, 0, 0, 0⟩ ∧
  State.reset.truncv = 0 ∧ State.reset.tokenv = 0 ∧ State.reset.tstr.toList = List.replicate 12 0 ∧
  irq State.reset = false

/-! ## The invariant and whole-machine rules -/

/-- Every step keeps the invariant of the block, from every state that has it and whatever comes next. -/
def Obligations.StepKeepsInvariant : Prop :=
  ∀ s t : State, Inv s → step s = .next t → Inv t

/-- The state after reset has the invariant. -/
def Obligations.ResetHasInvariant : Prop := Inv State.reset

/-- No well-formed instruction stops, in any state and for either agent (R11, R120). -/
def Obligations.WellFormedInstructionAnswers : Prop :=
  ∀ (i : Instr) (s : State), i.wf = true → ∃ t, exec i s = .next t

/-- A command of format CMD is the write of its word to CMD: the instruction a word decodes to, legal or illegal, does
for the Host what WR.CMD of that word does. -/
def Obligations.CommandIsWriteToCmd : Prop :=
  ∀ (w : Word) (s : State), s.agent = .host → exec (decodeCmd w) s = exec (.wrCmd w) s

/-- R34: the values of MODE, its transitions at completions, and that no access of the Host changes it. -/
def Obligations.ModeTransitions : Prop :=
  State.reset.mode = .idle ∧
  (∀ s : State, (statusWord s).extractLsb' 4 2 =
    (match s.mode with | .idle => (0 : BitVec 2) | .hash => 1 | .mac => 2) ∧
    (statusWord s).extractLsb' 4 2 ≠ 3) ∧
  (∀ (i : Instr) (s t : State), s.agent = .host → exec i s = .next t → t.mode = s.mode) ∧
  (∀ (c : Op) (n : BitVec 7) (s : State), s.agent = .engine →
    ∃ t, exec (commandInstr c n) s = .next t ∧
      t.mode = (match c with
        | .hashInit => .hash
        | .hashUpdate => s.mode
        | .hashFinal => .idle
        | .macStart => .mac
        | .macFinal => .idle
        | .tokenGen => .idle
        | .clear => .idle))

/-- While a command is pending no access of the Host changes anything the command reads: only ERR and ERRCODE, and the
value returned to the Host (R38, R131). -/
def Obligations.PendingCommandInputsStable : Prop :=
  ∀ (i : Instr) (s t : State), s.agent = .host → s.busy = true → exec i s = .next t →
    t = { s with err := t.err, errcode := t.errcode, rdata := t.rdata }

/-- No access of the Host changes H, TLEN, KSAVE or the token results; the valid bits change only by an acceptance, which
clears them (R33, R37, R133). -/
def Obligations.HostAccessKeepsResults : Prop :=
  ∀ (i : Instr) (s t : State), s.agent = .host → exec i s = .next t →
    t.h = s.h ∧ t.tlen = s.tlen ∧ t.ksave = s.ksave ∧ t.truncv = s.truncv ∧ t.tokenv = s.tokenv ∧
      t.tstr = s.tstr ∧
      ((t.dvalid = s.dvalid ∧ t.tvalid = s.tvalid ∧ t.done = s.done ∧ t.pend = s.pend) ∨
        (t.dvalid = false ∧ t.tvalid = false ∧ t.done = false ∧ t.busy = true ∧ s.busy = false))

/-- No completion but CLEAR's writes MSG, KEY, KEYLEN, COUNTER or the error; none writes CFG or IRQ_EN (R28, R113,
R124). -/
def Obligations.CompletionKeepsHostRegisters : Prop :=
  ∀ (c : Op) (n : BitVec 7) (s t : State), s.agent = .engine → exec (commandInstr c n) s = .next t →
    t.digits = s.digits ∧ t.lock = s.lock ∧ t.irqEn = s.irqEn ∧ t.rdata = s.rdata ∧ t.inputs = s.inputs ∧
      (c ≠ .clear → t.msg = s.msg ∧ t.key = s.key ∧ t.keylen = s.keylen ∧ t.counter = s.counter ∧
        t.err = s.err ∧ t.errcode = s.errcode)

/-- R121: ERR and ERRCODE leave their values only at the completion of CLEAR and at reset; a further error keeps the
first code and changes nothing else; an error blocks no later access: each is performed as it would be with ERR = 0. -/
def Obligations.ErrorReturnsOnlyByClearOrReset : Prop :=
  (∀ s t : State, s.err = true → step s = .next t →
    (t.err = true ∧ t.errcode = s.errcode) ∨
    (t.err = false ∧ t.errcode = .none ∧
      ((∃ rest, s.inputs = .reset :: rest) ∨ (∃ p, s.pend = some p ∧ p.op = .clear ∧ t.pend = none)))) ∧
  (∀ (c : ErrCode) (s : State), s.err = true → raiseError c s = s) ∧
  (∀ (i : Instr) (s t : State) (c : ErrCode), (∀ off, i ≠ .rd off) → exec i s = .next t →
    ∃ t', exec i { s with err := true, errcode := c } = .next t' ∧
      t' = { t with err := t'.err, errcode := t'.errcode })

/-- CFG.LOCK (R19): "once 1 only reset clears it", and while it is set DIGITS does not change. -/
def Obligations.LockedConfigurationStaysUntilReset : Prop :=
  ∀ s t : State, s.lock = true → step s = .next t →
    (t.lock = true ∧ t.digits = s.digits) ∨ (∃ rest, s.inputs = .reset :: rest)

/-- The key cannot be learned by anything but a keyed computation (R29, R36, R123): of two states that differ in KEY and
KSAVE only, a step that completes no MAC_START, MAC_FINAL or TOKEN_GEN leads to two that differ in them only. Every step
of the Host, of the environment and of a reset is such a step, whatever is pending; the Engine's is one unless one of
those three is pending. -/
def Obligations.KeyNeverLeaks : Prop :=
  ∀ s t s' : State, AgreeButKey s t →
    (s.inputs = [] ∨ (∃ rest, s.inputs = .engine :: rest) →
      ∀ p, s.pend = some p → p.op ≠ .macStart ∧ p.op ≠ .macFinal ∧ p.op ≠ .tokenGen) →
    step s = .next s' → ∃ t', step t = .next t' ∧ AgreeButKey s' t'

/-- The intermediate values of an open stream, and of a pending command, are hidden (R123, R133): with a stream open or
BUSY = 1 every result register reads 0. -/
def Obligations.IntermediateValuesHidden : Prop :=
  ∀ (s : State) (off : BitVec 12), Inv s → (s.mode ≠ .idle ∨ s.busy = true) → off.toNat % 4 = 0 →
    (0x024 ≤ off ∧ off ≤ 0x034) ∨ (0x0C0 ≤ off ∧ off ≤ 0x0D0) ∨ (0x100 ≤ off ∧ off ≤ 0x124) →
    exec (.rd off) s = .next { s with rdata := 0 }

/-! ## Register accesses -/

/-- R104: a read returns the register's value and changes no state of the block (`rdata` is what is returned). -/
def Obligations.ReadReturnsRegisterValue : Prop :=
  ∀ s : State,
    exec (.rd 0x000) s = .next { s with rdata := 0x53484131 } ∧
    exec (.rd 0x004) s = .next { s with rdata := 0 } ∧
    exec (.rd 0x008) s = .next { s with rdata := statusWord s } ∧
    exec (.rd 0x00C) s = .next { s with
      rdata := BitVec.ofNat 32 (s.digits.toNat + if s.lock then 2 ^ 31 else 0) } ∧
    exec (.rd 0x010) s = .next { s with rdata := if s.irqEn then 1 else 0 } ∧
    exec (.rd 0x014) s = .next { s with rdata := BitVec.ofNat 32 s.keylen.toNat } ∧
    exec (.rd 0x018) s = .next { s with rdata := s.counter } ∧
    exec (.rd 0x01C) s = .next { s with rdata := s.tlen.extractLsb' 0 32 } ∧
    exec (.rd 0x020) s = .next { s with rdata := s.tlen.extractLsb' 32 32 } ∧
    exec (.rd 0x024) s = .next { s with rdata := if s.tvalid then s.truncv else 0 } ∧
    exec (.rd 0x028) s = .next { s with rdata := if s.tvalid then s.tokenv else 0 } ∧
    (∀ j : Fin 3, exec (.rd (BitVec.ofNat 12 (0x02C + 4 * j.val))) s = .next { s with
      rdata := if s.tvalid then wordAt s.tstr.toList j.val else 0 }) ∧
    (∀ i : Fin 16, exec (.rd (BitVec.ofNat 12 (0x040 + 4 * i.val))) s = .next { s with rdata := s.msg[i] }) ∧
    (∀ i : Fin 16, exec (.rd (BitVec.ofNat 12 (0x080 + 4 * i.val))) s = .next { s with rdata := 0 }) ∧
    (∀ i : Fin 5, exec (.rd (BitVec.ofNat 12 (0x0C0 + 4 * i.val))) s = .next { s with
      rdata := if s.dvalid then [s.h.h0, s.h.h1, s.h.h2, s.h.h3, s.h.h4].getD i.val 0 else 0 }) ∧
    (∀ j : Fin 10, exec (.rd (BitVec.ofNat 12 (0x100 + 4 * j.val))) s = .next { s with
      rdata := if s.dvalid then wordAt (hexBytes s.h) j.val else 0 }) ∧
    (∀ off : BitVec 12, off.toNat % 4 = 0 →
      off = 0x038 ∨ off = 0x03C ∨ (0x0D4 ≤ off ∧ off ≤ 0x0FC) ∨ 0x128 ≤ off →
      exec (.rd off) s = .next { s with rdata := 0 }) ∧
    (∀ off : BitVec 12, off.toNat % 4 ≠ 0 → exec (.rd off) s = .fault .busFault)

/-- The fields of STATUS (the table of R18), each where it stands: MODE by its values, ERRCODE by the codes of R115, and
the reserved bits 0. -/
def Obligations.StatusFieldPlaces : Prop :=
  ∀ s : State,
    (statusWord s).getLsbD 0 = s.busy ∧ (statusWord s).getLsbD 1 = s.done ∧ (statusWord s).getLsbD 2 = s.err ∧
    (statusWord s).getLsbD 3 = false ∧
    (statusWord s).extractLsb' 4 2 = (match s.mode with | .idle => (0 : BitVec 2) | .hash => 1 | .mac => 2) ∧
    (statusWord s).getLsbD 6 = s.dvalid ∧ (statusWord s).getLsbD 7 = s.tvalid ∧
    (statusWord s).extractLsb' 8 4 = (match s.errcode with
      | .none => (0 : BitVec 4)
      | .illegalCmd => 1
      | .badSequence => 2
      | .badNbytes => 3
      | .badKeylen => 4
      | .busyWrite => 5
      | .badDigits => 6
      | .cfgLocked => 7) ∧
    (statusWord s).extractLsb' 12 20 = 0

/-- R105 with the checks of R117 in their order, on the raw bits of the word. -/
def Obligations.WriteCmdChecksThenAccepts : Prop :=
  ∀ (v : Word) (s : State),
    let op := v.extractLsb' 0 4
    let n := v.extractLsb' 8 7
    ∃ t, exec (.wrCmd v) s = .next t ∧
      if s.busy then t = raiseError .busyWrite s
      else if op = 0 ∨ 8 ≤ op ∨ v.extractLsb' 4 4 ≠ 0 ∨ v.extractLsb' 15 17 ≠ 0 ∨
          (op ≠ 2 ∧ op ≠ 3 ∧ op ≠ 5 ∧ n ≠ 0) then t = raiseError .illegalCmd s
      else if op = 2 ∧ s.mode = .idle then t = raiseError .badSequence s
      else if op = 3 ∧ s.mode ≠ .hash then t = raiseError .badSequence s
      else if op = 5 ∧ s.mode ≠ .mac then t = raiseError .badSequence s
      else if op = 2 ∧ n ≠ 64 then t = raiseError .badNbytes s
      else if (op = 3 ∨ op = 5) ∧ 64 < n then t = raiseError .badNbytes s
      else if (op = 4 ∨ op = 6) ∧ 64 < s.keylen then t = raiseError .badKeylen s
      else ∃ c : Op, opCode c = op ∧
        t = { s with done := false, dvalid := false, tvalid := false, pend := some ⟨c, n⟩ }

/-- R106 with the checks of R118 in their order. -/
def Obligations.WriteCfgChecksThenStores : Prop :=
  ∀ (v : Word) (s : State),
    exec (.wrCfg v) s = .next (
      if s.busy then raiseError .busyWrite s
      else if s.lock then raiseError .cfgLocked s
      else if v.extractLsb' 0 4 = 0 ∨ 10 < v.extractLsb' 0 4 then raiseError .badDigits s
      else { s with digits := v.extractLsb' 0 4, lock := v.getLsbD 31 })

/-- R107, R108, R109. -/
def Obligations.WriteControlRegisters : Prop :=
  ∀ (v : Word) (s : State),
    (s.busy = true →
      exec (.wrIrqEn v) s = .next (raiseError .busyWrite s) ∧
      exec (.wrKeylen v) s = .next (raiseError .busyWrite s) ∧
      exec (.wrCounter v) s = .next (raiseError .busyWrite s)) ∧
    (s.busy = false →
      exec (.wrIrqEn v) s = .next { s with irqEn := v.getLsbD 0 } ∧
      exec (.wrKeylen v) s = .next { s with keylen := BitVec.ofNat 7 (v.toNat % 128) } ∧
      exec (.wrCounter v) s = .next { s with counter := v })

/-- R110 and R111: the four bytes of the word written, every other byte of the window and all other state unchanged;
while BUSY = 1 the write is rejected. -/
def Obligations.WriteMessageAndKeyWindows : Prop :=
  ∀ (i : BitVec 4) (v : Word) (s : State),
    (s.busy = true →
      exec (.wrMsg i v) s = .next (raiseError .busyWrite s) ∧
      exec (.wrKey i v) s = .next (raiseError .busyWrite s)) ∧
    (s.busy = false →
      (∃ t, exec (.wrMsg i v) s = .next t ∧ t = { s with msg := t.msg } ∧
        (∀ j, j < 4 → (msgBytes t)[4 * i.toNat + j]? = some (v.extractLsb' (24 - 8 * j) 8)) ∧
        (∀ k, k < 64 → k / 4 ≠ i.toNat → (msgBytes t)[k]? = (msgBytes s)[k]?)) ∧
      (∃ t, exec (.wrKey i v) s = .next t ∧ t = { s with key := t.key } ∧
        (∀ j, j < 4 → (keyBytes t)[4 * i.toNat + j]? = some (v.extractLsb' (24 - 8 * j) 8)) ∧
        (∀ k, k < 64 → k / 4 ≠ i.toNat → (keyBytes t)[k]? = (keyBytes s)[k]?)))

/-- R112: a write to a read-only register or an unmapped offset changes nothing, busy or not; so does the whole step
that takes it, past the event and with the Host as the agent. -/
def Obligations.IgnoredWriteChangesNothing : Prop :=
  (∀ (off : BitVec 12) (v : Word) (s : State), off.toNat % 4 = 0 → exec (.wrIgnored off v) s = .next s) ∧
  (∀ (s : State) (off : BitVec 12) (v : Word) (rest : List Event),
    s.inputs = .access (.bus ⟨.write, 4, off, v⟩) :: rest → off.toNat % 4 = 0 →
    off = 0x000 ∨ off = 0x008 ∨ (0x01C ≤ off ∧ off ≤ 0x03C) ∨ 0x0C0 ≤ off →
    step s = .next { s with inputs := rest, agent := .host })

/-- R116: the first error's code is kept, and nothing but ERR and ERRCODE changes. -/
def Obligations.RaiseErrorKeepsFirstCode : Prop :=
  ∀ (c : ErrCode) (s : State),
    (s.err = false → raiseError c s = { s with err := true, errcode := c }) ∧
    (s.err = true → raiseError c s = s)

/-- R122: the line, what raises it and what lowers it. -/
def Obligations.InterruptLine : Prop :=
  (∀ s : State, irq s = true ↔ s.irqEn = true ∧ (s.done = true ∨ s.err = true)) ∧
  (∀ (p : Pending) (s : State), irq (acceptCommand p s) = (s.irqEn && s.err)) ∧
  (∀ s : State, irq (finishCommand s) = s.irqEn) ∧
  (∀ s : State, irq (clearEffect s) = (s.irqEn && s.done)) ∧
  (∀ (c : ErrCode) (s : State), irq (raiseError c s) = s.irqEn) ∧
  (∀ (v : Word) (s : State), s.busy = false → v.getLsbD 0 = false →
    ∃ t, exec (.wrIrqEn v) s = .next t ∧ irq t = false)

/-! ## Commands: each for the Engine, its completion, and for the Host, its checks and its acceptance -/

/-- R81. -/
def Obligations.HashInitOpensStream : Prop :=
  ∀ s : State,
    decodeCmd 0x00000001 = .hashInit ∧
    (∀ w : Word, w.extractLsb' 0 4 = 1 → w ≠ 0x00000001 → decodeCmd w = .illegalReserved w) ∧
    (s.agent = .engine → exec .hashInit s = .next { s with
      h := ⟨0x67452301, 0xEFCDAB89, 0x98BADCFE, 0x10325476, 0xC3D2E1F0⟩, tlen := 0,
      ksave := Vector.replicate 64 0, mode := .hash, pend := none, done := true }) ∧
    (s.agent = .host → s.busy = true → exec .hashInit s = .next (raiseError .busyWrite s)) ∧
    (s.agent = .host → s.busy = false → exec .hashInit s = .next { s with
      done := false, dvalid := false, tvalid := false, pend := some ⟨.hashInit, 0⟩ })

/-- R82. -/
def Obligations.HashUpdateAbsorbsBlock : Prop :=
  ∀ (s : State) (n : BitVec 7),
    decodeCmd 0x00004002 = .hashUpdate 64 ∧
    (∀ w : Word, w.extractLsb' 0 4 = 2 → (w.extractLsb' 4 4 ≠ 0 ∨ w.extractLsb' 15 17 ≠ 0) →
      decodeCmd w = .illegalReserved w) ∧
    (s.agent = .engine → exec (.hashUpdate n) s = .next { s with
      h := compress s.h (msgBytes s), tlen := s.tlen + 64, pend := none, done := true }) ∧
    (s.agent = .host → exec (.hashUpdate n) s = .next (
      if s.busy then raiseError .busyWrite s
      else if s.mode = .idle then raiseError .badSequence s
      else if n ≠ 64 then raiseError .badNbytes s
      else { s with done := false, dvalid := false, tvalid := false, pend := some ⟨.hashUpdate, 64⟩ }))

/-- R83. -/
def Obligations.HashFinalProducesDigest : Prop :=
  ∀ (s : State) (n : BitVec 7),
    decodeCmd (0x00000003 + (n.zeroExtend 32 <<< 8)) = .hashFinal n ∧
    (∀ w : Word, w.extractLsb' 0 4 = 3 → (w.extractLsb' 4 4 ≠ 0 ∨ w.extractLsb' 15 17 ≠ 0) →
      decodeCmd w = .illegalReserved w) ∧
    (s.agent = .engine → n ≤ 64 →
      let tlen := s.tlen + BitVec.ofNat 64 n.toNat
      exec (.hashFinal n) s = .next { s with
        tlen := tlen, h := finish s.h ((msgBytes s).take n.toNat) (8 * tlen),
        mode := .idle, dvalid := true, pend := none, done := true }) ∧
    (s.agent = .host → exec (.hashFinal n) s = .next (
      if s.busy then raiseError .busyWrite s
      else if s.mode ≠ .hash then raiseError .badSequence s
      else if 64 < n then raiseError .badNbytes s
      else { s with done := false, dvalid := false, tvalid := false, pend := some ⟨.hashFinal, n⟩ }))

/-- R90. -/
def Obligations.MacStartLatchesKey : Prop :=
  ∀ s : State,
    decodeCmd 0x00000004 = .macStart ∧
    (∀ w : Word, w.extractLsb' 0 4 = 4 → w ≠ 0x00000004 → decodeCmd w = .illegalReserved w) ∧
    (s.agent = .engine → s.keylen ≤ 64 →
      ∃ t, exec .macStart s = .next t ∧
        t = { s with
          ksave := t.ksave, h := compress iv (ipad ((keyBytes s).take s.keylen.toNat)), tlen := 0,
          mode := .mac, pend := none, done := true } ∧
        t.ksave.toList = (keyBytes s).take s.keylen.toNat ++ List.replicate (64 - s.keylen.toNat) 0) ∧
    (s.agent = .host → exec .macStart s = .next (
      if s.busy then raiseError .busyWrite s
      else if 64 < s.keylen then raiseError .badKeylen s
      else { s with done := false, dvalid := false, tvalid := false, pend := some ⟨.macStart, 0⟩ }))

/-- R91. -/
def Obligations.MacFinalProducesMac : Prop :=
  ∀ (s : State) (n : BitVec 7),
    decodeCmd (0x00000005 + (n.zeroExtend 32 <<< 8)) = .macFinal n ∧
    (∀ w : Word, w.extractLsb' 0 4 = 5 → (w.extractLsb' 4 4 ≠ 0 ∨ w.extractLsb' 15 17 ≠ 0) →
      decodeCmd w = .illegalReserved w) ∧
    (s.agent = .engine → n ≤ 64 →
      let tlen := s.tlen + BitVec.ofNat 64 n.toNat
      let hin := finish s.h ((msgBytes s).take n.toNat) (8 * (64 + tlen))
      let ho := compress iv (s.ksave.toList.map (0x5C ^^^ ·))
      exec (.macFinal n) s = .next { s with
        tlen := tlen, h := finish ho (ser hin) 672, ksave := Vector.replicate 64 0,
        mode := .idle, dvalid := true, pend := none, done := true }) ∧
    (∀ k : List Byte, k.length ≤ 64 → s.ksave.toList = k ++ List.replicate (64 - k.length) 0 →
      s.ksave.toList.map (0x5C ^^^ ·) = opad k) ∧
    (s.agent = .host → exec (.macFinal n) s = .next (
      if s.busy then raiseError .busyWrite s
      else if s.mode ≠ .mac then raiseError .badSequence s
      else if 64 < n then raiseError .badNbytes s
      else { s with done := false, dvalid := false, tvalid := false, pend := some ⟨.macFinal, n⟩ }))

/-- R103, with the steps of the generator (R100) in their order. -/
def Obligations.TokenGenComputesCode : Prop :=
  ∀ s : State,
    decodeCmd 0x00000006 = .tokenGen ∧
    (∀ w : Word, w.extractLsb' 0 4 = 6 → w ≠ 0x00000006 → decodeCmd w = .illegalReserved w) ∧
    (s.agent = .engine → 1 ≤ s.digits → s.digits ≤ 10 → s.keylen ≤ 64 →
      let mac := hmac ((keyBytes s).take s.keylen.toNat) (ctrField s.counter)
      let v := code (truncate mac) s.digits.toNat
      ∃ t, exec .tokenGen s = .next t ∧
        t = { s with
          h := t.h, truncv := truncate mac, tokenv := v, tstr := t.tstr, tlen := 8,
          ksave := Vector.replicate 64 0, mode := .idle, dvalid := true, tvalid := true,
          pend := none, done := true } ∧
        ser t.h = mac ∧
        t.tstr.toList = decimalString v s.digits.toNat ++ List.replicate (12 - s.digits.toNat) 0) ∧
    (s.agent = .host → exec .tokenGen s = .next (
      if s.busy then raiseError .busyWrite s
      else if 64 < s.keylen then raiseError .badKeylen s
      else { s with done := false, dvalid := false, tvalid := false, pend := some ⟨.tokenGen, 0⟩ }))

/-- R113. -/
def Obligations.ClearZeroises : Prop :=
  ∀ s : State,
    decodeCmd 0x00000007 = .clear ∧
    (∀ w : Word, w.extractLsb' 0 4 = 7 → w ≠ 0x00000007 → decodeCmd w = .illegalReserved w) ∧
    (s.agent = .engine → exec .clear s = .next { s with
      h := ⟨0, 0, 0, 0, 0⟩, tlen := 0, msg := Vector.replicate 16 0, key := Vector.replicate 16 0,
      ksave := Vector.replicate 64 0, keylen := 0, counter := 0, truncv := 0, tokenv := 0,
      tstr := Vector.replicate 12 0, mode := .idle, err := false, errcode := .none,
      pend := none, done := true }) ∧
    (s.agent = .host → s.busy = true → exec .clear s = .next (raiseError .busyWrite s)) ∧
    (s.agent = .host → s.busy = false → exec .clear s = .next { s with
      done := false, dvalid := false, tvalid := false, pend := some ⟨.clear, 0⟩ })

/-- Which words are illegal, and that each only records its error (R114). Which of the table's three illegal rows a word
that matches several belongs to is the model's reading (notes/assumptions/8.md). -/
def Obligations.IllegalWordRecordsError : Prop :=
  (∀ w : Word, w.extractLsb' 0 4 = 0 → decodeCmd w = .illegalOp0 w) ∧
  (∀ w : Word, 8 ≤ w.extractLsb' 0 4 → decodeCmd w = .illegalOp8To15 w) ∧
  (∀ w : Word, w.extractLsb' 0 4 ≠ 0 → w.extractLsb' 0 4 < 8 →
    (w.extractLsb' 4 4 ≠ 0 ∨ w.extractLsb' 15 17 ≠ 0 ∨
      (w.extractLsb' 8 7 ≠ 0 ∧ (w.extractLsb' 0 4 = 1 ∨ w.extractLsb' 0 4 = 4 ∨
        w.extractLsb' 0 4 = 6 ∨ w.extractLsb' 0 4 = 7))) →
    decodeCmd w = .illegalReserved w) ∧
  (∀ (w : Word) (s : State) (i : Instr),
    i = .illegalOp0 w ∨ i = .illegalOp8To15 w ∨ i = .illegalReserved w →
    exec i s = .next (raiseError (if s.busy then .busyWrite else .illegalCmd) s))

/-! ## The hash function -/

/-- R67, R68 and R72: the initial value, the additive constant of each phase, and one round. -/
def Obligations.ConstantsAndRoundRule : Prop :=
  iv = ⟨0x67452301, 0xEFCDAB89, 0x98BADCFE, 0x10325476, 0xC3D2E1F0⟩ ∧
  (∀ t, t < 80 →
    roundConstant t = (([0x5A827999, 0x6ED9EBA1, 0x8F1BBCDC, 0xCA62C1D6] : List Word).getD (t / 20) 0)) ∧
  (∀ (t : Nat) (w : Word) (v : Vars), t < 80 →
    roundStep t w v =
      ⟨v.a.rotateLeft 5 + phase t v.b v.c v.d + v.e + w + roundConstant t, v.a, v.b.rotateLeft 30, v.c, v.d⟩)

/-- The phase functions of R69, bit by bit: choose, parity, majority, parity. The spec supplies them "from general
knowledge, not in source" (notes/assumptions/10.md). -/
def Obligations.PhaseFunctionsBitwise : Prop :=
  ∀ (t : Nat) (b c d : Word) (i : Nat), t < 80 → i < 32 →
    (t / 20 = 0 → (phase t b c d).getLsbD i = if b.getLsbD i then c.getLsbD i else d.getLsbD i) ∧
    (t / 20 = 1 ∨ t / 20 = 3 → ((phase t b c d).getLsbD i = true ↔
      ((b.getLsbD i).toNat + (c.getLsbD i).toNat + (d.getLsbD i).toNat) % 2 = 1)) ∧
    (t / 20 = 2 → ((phase t b c d).getLsbD i = true ↔
      2 ≤ (b.getLsbD i).toNat + (c.getLsbD i).toNat + (d.getLsbD i).toNat))

/-- R70: the schedule and its recurrence, and its corner case. -/
def Obligations.ScheduleRecurrence : Prop :=
  ∀ m : List Byte, m.length = 64 →
    (schedule m).length = 80 ∧
    (∀ i, i < 16 → (schedule m).getD i 0 = BitVec.ofNat 32 (unBE ((m.drop (4 * i)).take 4))) ∧
    (∀ i, 16 ≤ i → i < 80 → (schedule m).getD i 0 =
      rotl 1 ((schedule m).getD (i - 3) 0 ^^^ (schedule m).getD (i - 8) 0 ^^^
        (schedule m).getD (i - 14) 0 ^^^ (schedule m).getD (i - 16) 0)) ∧
    (m = List.replicate 64 0 → ∀ i, i < 80 → (schedule m).getD i 0 = 0)

/-- The compression of R73 as a sequence of working variables: they start as the accumulator (R71, which the spec
supplies "from general knowledge, not in source"; notes/assumptions/10.md), eighty rounds follow, and they are added
back. -/
def Obligations.CompressRunsEightyRounds : Prop :=
  ∀ (h : Digest) (m : List Byte), m.length = 64 →
    ∃ v : Nat → Vars,
      v 0 = ⟨h.h0, h.h1, h.h2, h.h3, h.h4⟩ ∧
      (∀ t, t < 80 → v (t + 1) = roundStep t ((schedule m).getD t 0) (v t)) ∧
      compress h m =
        ⟨h.h0 + (v 80).a, h.h1 + (v 80).b, h.h2 + (v 80).c, h.h3 + (v 80).d, h.h4 + (v 80).e⟩

/-- R74, byte by byte. -/
def Obligations.PaddingLayout : Prop :=
  ∀ (t : List Byte) (len : BitVec 64), t.length ≤ 63 →
    (pad t len).length = (if t.length ≤ 55 then 64 else 128) ∧
    (pad t len).take t.length = t ∧
    (pad t len)[t.length]? = some 0x80 ∧
    (∀ k, t.length < k → k < (pad t len).length - 8 → (pad t len)[k]? = some 0) ∧
    (pad t len).drop ((pad t len).length - 8) = beBytes 8 len.toNat

/-- R75: one, two or two blocks, by the length of the tail. -/
def Obligations.FinishCompressesOneOrTwoBlocks : Prop :=
  ∀ (h : Digest) (t : List Byte) (len : BitVec 64),
    (t.length ≤ 55 → finish h t len = compress h (pad t len)) ∧
    (56 ≤ t.length → t.length ≤ 63 →
      finish h t len = compress (compress h ((pad t len).take 64)) ((pad t len).drop 64)) ∧
    (t.length = 64 → finish h t len = compress (compress h t) (pad [] len))

/-- R77 with the length field of R76: whole blocks in order, then the tail; and the source's two vectors (the second as
corrected by 90_conflicts.md C1). -/
def Obligations.Sha1OfBlocksAndTail : Prop :=
  (∀ (blocks : List (List Byte)) (tail : List Byte),
    (∀ b, b ∈ blocks → b.length = 64) → tail.length < 64 →
    sha1 (blocks.flatten ++ tail) =
      ser (finish (blocks.foldl compress iv) tail
        (BitVec.ofNat 64 (8 * (64 * blocks.length + tail.length))))) ∧
  sha1 [] = beBytes 20 0xda39a3ee5e6b4b0d3255bfef95601890afd80709 ∧
  sha1 [0x61, 0x62, 0x63] = beBytes 20 0xa9993e364706816aba3e25717850c26c9cd0d89d

/-- R78: the 20 bytes of the digest, and that the accumulator is read back from them. -/
def Obligations.DigestSerialisation : Prop :=
  ∀ h : Digest, (ser h).length = 20 ∧ unSer (ser h) = h ∧
    ∀ k, k < 20 → (ser h)[k]? =
      some (([h.h0, h.h1, h.h2, h.h3, h.h4].getD (k / 4) 0).extractLsb' (24 - 8 * (k % 4)) 8)

/-- The 40 characters of R79, high nibble first, in the ASCII codes the spec supplies "from general knowledge, not in
source" (notes/assumptions/10.md). -/
def Obligations.HexRendering : Prop :=
  ∀ h : Digest, (hexBytes h).length = 40 ∧
    ∀ k, k < 20 → ∃ x : Byte, (ser h)[k]? = some x ∧
      (hexBytes h)[2 * k]? = some (BitVec.ofNat 8
        (if x.toNat / 16 ≤ 9 then 0x30 + x.toNat / 16 else 0x61 + (x.toNat / 16 - 10))) ∧
      (hexBytes h)[2 * k + 1]? = some (BitVec.ofNat 8
        (if x.toNat % 16 ≤ 9 then 0x30 + x.toNat % 16 else 0x61 + (x.toNat % 16 - 10)))

/-! ## Byte order -/

/-- `BE_N` and `unBE` of R7 are each other's inverse, and the most significant byte comes first. -/
def Obligations.BigEndianPrimitives : Prop :=
  (∀ n v : Nat, (beBytes n v).length = n ∧
    ∀ i, i < n → (beBytes n v)[i]? = some (BitVec.ofNat 8 (v / 256 ^ (n - 1 - i)))) ∧
  (∀ n v : Nat, v < 2 ^ (8 * n) → unBE (beBytes n v) = v) ∧
  (∀ b : List Byte, unBE b < 2 ^ (8 * b.length) ∧ beBytes b.length (unBE b) = b)

/-- R49: byte k of a window of registers, and word i of a byte sequence. -/
def Obligations.WindowBytePacking : Prop :=
  (∀ v : Vector Word 16, (windowBytes v).length = 64 ∧
    (∀ k : Fin 64, (windowBytes v)[k.val]? =
      some ((v[k.val / 4]'(by have := k.isLt; omega)).extractLsb' (24 - 8 * (k.val % 4)) 8)) ∧
    (∀ i : Fin 16, wordAt (windowBytes v) i.val = v[i])) ∧
  (∀ (b : List Byte) (i : Nat), 4 * i + 3 < b.length →
    wordAt b i = (b.getD (4 * i) 0).zeroExtend 32 <<< 24 ||| (b.getD (4 * i + 1) 0).zeroExtend 32 <<< 16 |||
      (b.getD (4 * i + 2) 0).zeroExtend 32 <<< 8 ||| (b.getD (4 * i + 3) 0).zeroExtend 32)

/-! ## The authenticator and the token -/

/-- R86. -/
def Obligations.KeyPadBytes : Prop :=
  ∀ k : List Byte, k.length ≤ 64 →
    (ipad k).length = 64 ∧ (opad k).length = 64 ∧
    (∀ i, i < k.length → (ipad k)[i]? = some (0x36 ^^^ k.getD i 0) ∧ (opad k)[i]? = some (0x5C ^^^ k.getD i 0)) ∧
    (∀ i, k.length ≤ i → i < 64 → (ipad k)[i]? = some 0x36 ∧ (opad k)[i]? = some 0x5C)

/-- R88: the two passes over the raw bytes; the inner length field counts the pad, and the outer hash has 84 bytes. -/
def Obligations.HmacTwoPasses : Prop :=
  ∀ k m : List Byte, k.length ≤ 64 →
    hmac k m = sha1 (opad k ++ sha1 (ipad k ++ m)) ∧
    (hmac k m).length = 20 ∧
    ∃ inner : Digest,
      sha1 (ipad k ++ m) = ser inner ∧
      inner = finish (compressBlocks (compress iv (ipad k)) m (m.length / 64)) (m.drop (64 * (m.length / 64)))
        (BitVec.ofNat 64 (8 * (64 + m.length))) ∧
      hmac k m = ser (finish (compress iv (opad k)) (ser inner) 672)

/-- R94. -/
def Obligations.CounterFieldBytes : Prop :=
  ∀ c : Word, (ctrField c).length = 8 ∧ ctrField c = [0, 0, 0, 0] ++ beBytes 4 c.toNat ∧
    unBE (ctrField c) = c.toNat

/-- R95, R96 and R97: the offset, the 31-bit code, and its reduction. -/
def Obligations.TruncationAndReduction : Prop :=
  (∀ mac : List Byte, mac.length = 20 →
    let o := (mac.getD 19 0).toNat % 16
    truncOffset mac = o ∧ o + 3 ≤ 18 ∧
    (truncate mac).toNat = unBE ((mac.drop o).take 4) % 2 ^ 31 ∧ (truncate mac).toNat ≤ 2147483647) ∧
  (∀ (v : Word) (d : Nat), v.toNat < 2 ^ 31 → 1 ≤ d → d ≤ 10 →
    (code v d).toNat = v.toNat % 10 ^ d ∧ (code v d).toNat < 10 ^ d ∧ (d = 10 → code v d = v))

/-- The string of R98: D decimal digits in the ASCII codes the spec supplies "from general knowledge, not in source"
(notes/assumptions/10.md), whose value is the code, zero-padded on the left. -/
def Obligations.DecimalStringDigits : Prop :=
  ∀ (v : Word) (d : Nat), v.toNat < 10 ^ d →
    (decimalString v d).length = d ∧
    (∀ x, x ∈ decimalString v d → 0x30 ≤ x ∧ x ≤ 0x39) ∧
    (∀ j, j < d → (decimalString v d)[j]? = some (BitVec.ofNat 8 (0x30 + v.toNat / 10 ^ (d - 1 - j) % 10))) ∧
    (decimalString v d).foldl (fun acc x => acc * 10 + (x.toNat - 0x30)) 0 = v.toNat

/-! ## Streams -/

/-- The three commands of a plain hash keep the stream: HASH_INIT opens the empty stream, HASH_UPDATE appends MSG, and
HASH_FINAL n leaves the SHA-1 of everything absorbed and of the first n bytes of MSG (R81 to R84). -/
def Obligations.HashStreamComputesSha1 : Prop :=
  (∀ s : State, s.agent = .engine → ∃ t, exec .hashInit s = .next t ∧ HashStream [] t) ∧
  (∀ (s : State) (m : List Byte), s.agent = .engine → HashStream m s →
    ∃ t, exec (.hashUpdate 64) s = .next t ∧ HashStream (m ++ msgBytes s) t) ∧
  (∀ (s : State) (m : List Byte) (n : BitVec 7), s.agent = .engine → HashStream m s → n ≤ 64 →
    ∃ t, exec (.hashFinal n) s = .next t ∧ ser t.h = sha1 (m ++ (msgBytes s).take n.toNat) ∧
      t.tlen = BitVec.ofNat 64 (m.length + n.toNat) ∧ t.dvalid = true ∧ t.mode = .idle)

/-- The same for a keyed stream: MAC_START opens it under the first KEYLEN bytes of KEY, HASH_UPDATE appends MSG, and
MAC_FINAL n leaves the HMAC and a zero KSAVE (R90 to R92). -/
def Obligations.MacStreamComputesHmac : Prop :=
  (∀ s : State, s.agent = .engine → s.keylen ≤ 64 →
    ∃ t, exec .macStart s = .next t ∧ MacStream ((keyBytes s).take s.keylen.toNat) [] t) ∧
  (∀ (s : State) (k m : List Byte), s.agent = .engine → MacStream k m s →
    ∃ t, exec (.hashUpdate 64) s = .next t ∧ MacStream k (m ++ msgBytes s) t) ∧
  (∀ (s : State) (k m : List Byte) (n : BitVec 7), s.agent = .engine → MacStream k m s → n ≤ 64 →
    ∃ t, exec (.macFinal n) s = .next t ∧ ser t.h = hmac k (m ++ (msgBytes s).take n.toNat) ∧
      t.tlen = BitVec.ofNat 64 (m.length + n.toNat) ∧ t.dvalid = true ∧ t.mode = .idle ∧
      t.ksave = Vector.replicate 64 0)

/-- The stream equivalence of R84 over the machine's own steps: the accesses and completions that `hash b` expands to
(R66), from any state with BUSY = 0 and with any number of polls in each wait (`polls w` in wait w), end with
`Ser(H) = SHA1(b)`, for a byte string of any length, and record no error. -/
def Obligations.HashOfAnyMessage : Prop :=
  ∀ (s : State) (polls : Nat → Nat) (b : List Byte), s.busy = false → s.inputs = hashEvents polls b →
    ∃ t : State, runSteps (hashEvents polls b).length s = .next t ∧
      ser t.h = sha1 b ∧ t.dvalid = true ∧ t.mode = .idle ∧ t.tlen = BitVec.ofNat 64 b.length ∧
      t.busy = false ∧ t.inputs = [] ∧ t.err = s.err ∧ t.errcode = s.errcode

/-- The keyed pseudo-instructions of R66 in the same way, for every key of at most 64 bytes: `mac k, b` ends with
`Ser(H) = HMAC(k, b)` and a zero KSAVE, for a message of any length (R92); `token k, c` ends with the MAC of the counter,
its truncation, the code and the code's string that R100 gives for `k`, `c` and CFG.DIGITS. -/
def Obligations.MacOfAnyMessage : Prop :=
  (∀ (s : State) (polls : Nat → Nat) (k b : List Byte), k.length ≤ 64 → s.busy = false →
    s.inputs = macEvents polls k b →
    ∃ t : State, runSteps (macEvents polls k b).length s = .next t ∧
      ser t.h = hmac k b ∧ t.dvalid = true ∧ t.mode = .idle ∧ t.tlen = BitVec.ofNat 64 b.length ∧
      t.ksave = Vector.replicate 64 0 ∧
      t.busy = false ∧ t.inputs = [] ∧ t.err = s.err ∧ t.errcode = s.errcode) ∧
  (∀ (s : State) (polls : Nat) (k : List Byte) (c : Word), k.length ≤ 64 → 1 ≤ s.digits → s.digits ≤ 10 →
    s.busy = false → s.inputs = tokenEvents polls k c →
    let mac := hmac k (ctrField c)
    let v := code (truncate mac) s.digits.toNat
    ∃ t : State, runSteps (tokenEvents polls k c).length s = .next t ∧
      ser t.h = mac ∧ t.truncv = truncate mac ∧ t.tokenv = v ∧
      t.tstr.toList = decimalString v s.digits.toNat ++ List.replicate (12 - s.digits.toNat) 0 ∧
      t.dvalid = true ∧ t.tvalid = true ∧ t.mode = .idle ∧ t.tlen = 8 ∧ t.counter = c ∧
      t.ksave = Vector.replicate 64 0 ∧
      t.busy = false ∧ t.inputs = [] ∧ t.err = s.err ∧ t.errcode = s.errcode)

/-- Stale bytes do not count (R134, I22): final commands read only the first n bytes of MSG, and the keyed commands only
the first KEYLEN bytes of KEY; what else the window holds changes no result. -/
def Obligations.StaleBytesIgnored : Prop :=
  (∀ (s : State) (m : Vector Word 16) (n : BitVec 7), s.agent = .engine →
    (windowBytes m).take n.toNat = (msgBytes s).take n.toNat →
    (∃ t, exec (.hashFinal n) s = .next t ∧
      exec (.hashFinal n) { s with msg := m } = .next { t with msg := m }) ∧
    (∃ t, exec (.macFinal n) s = .next t ∧
      exec (.macFinal n) { s with msg := m } = .next { t with msg := m })) ∧
  (∀ (s : State) (k : Vector Word 16), s.agent = .engine → s.keylen ≤ 64 →
    (windowBytes k).take s.keylen.toNat = (keyBytes s).take s.keylen.toNat →
    (∃ t, exec .macStart s = .next t ∧ exec .macStart { s with key := k } = .next { t with key := k }) ∧
    (∃ t, exec .tokenGen s = .next t ∧ exec .tokenGen { s with key := k } = .next { t with key := k }))
end

