-- ==== Sys2Proof/Laws/Bytes.lean ====
section
/-! SUPPORT. Lengths and inverses of the byte encodings, and the byte windows. -/

namespace Sys2Proof.Machine

@[simp] theorem length_beBytes (n v : Nat) : (beBytes n v).length = n := by simp [beBytes]

@[simp] theorem length_wordBytes (w : Word) : (wordBytes w).length = 4 := rfl

theorem slice_length (b : List Byte) (i n : Nat) : (slice b i n).length = min n (b.length - i) := by
  simp [slice]

/-- The most significant byte of `BE_(n+1)` and the rest. -/
theorem beBytes_succ (n v : Nat) : beBytes (n + 1) v = BitVec.ofNat 8 (v / 256 ^ n) :: beBytes n v := by
  simp only [beBytes, List.range_succ_eq_map, List.map_cons, List.map_map, Nat.add_sub_cancel, Nat.sub_zero]
  congr 1
  apply List.map_congr_left
  intro a ha
  simp only [Function.comp]
  congr 2
  have := List.mem_range.1 ha
  congr 1
  omega

theorem foldl_unBE (b : List Byte) (acc : Nat) :
    b.foldl (fun acc x => acc * 256 + x.toNat) acc = acc * 256 ^ b.length + unBE b := by
  induction b generalizing acc with
  | nil => simp [unBE]
  | cons x b ih =>
    simp only [unBE, List.foldl_cons, List.length_cons]
    rw [ih, ih (0 * 256 + x.toNat)]
    ring

theorem unBE_cons (x : Byte) (b : List Byte) : unBE (x :: b) = x.toNat * 256 ^ b.length + unBE b := by
  conv_lhs => unfold unBE
  rw [List.foldl_cons, foldl_unBE]
  simp

@[simp] theorem unBE_nil : unBE [] = 0 := rfl

theorem unBE_lt (b : List Byte) : unBE b < 256 ^ b.length := by
  induction b with
  | nil => simp
  | cons x b ih =>
    rw [unBE_cons, List.length_cons, pow_succ]
    have := x.isLt
    nlinarith

theorem unBE_beBytes_mod (n v : Nat) : unBE (beBytes n v) = v % 256 ^ n := by
  induction n with
  | zero => simp [beBytes, Nat.mod_one]
  | succ n ih =>
    have h := Nat.mod_mul (x := v) (a := 256 ^ n) (b := 256)
    rw [beBytes_succ, unBE_cons, ih, length_beBytes, BitVec.toNat_ofNat, pow_succ 256 n, h]
    ring

theorem unBE_beBytes {n v : Nat} (h : v < 256 ^ n) : unBE (beBytes n v) = v := by
  rw [unBE_beBytes_mod, Nat.mod_eq_of_lt h]

/-- Adding a multiple of `256^n` changes no byte of `BE_n`. -/
theorem beBytes_add_mul (n v k : Nat) : beBytes n (k * 256 ^ n + v) = beBytes n v := by
  induction n generalizing k with
  | zero => simp [beBytes]
  | succ n ih =>
    rw [beBytes_succ, beBytes_succ]
    congr 1
    · apply BitVec.eq_of_toNat_eq
      rw [pow_succ, BitVec.toNat_ofNat, BitVec.toNat_ofNat,
        show k * (256 ^ n * 256) + v = v + 256 ^ n * (k * 256) by ring,
        Nat.add_mul_div_left _ _ (by positivity)]
      omega
    · rw [pow_succ, show k * (256 ^ n * 256) + v = (k * 256) * 256 ^ n + v by ring, ih]

theorem beBytes_unBE (b : List Byte) : beBytes b.length (unBE b) = b := by
  induction b with
  | nil => rfl
  | cons x b ih =>
    rw [List.length_cons, beBytes_succ, unBE_cons]
    congr 1
    · apply BitVec.eq_of_toNat_eq
      rw [BitVec.toNat_ofNat, mul_comm, Nat.mul_add_div (by positivity), Nat.div_eq_of_lt (unBE_lt b)]
      have := x.isLt
      omega
    · rw [beBytes_add_mul, ih]

theorem unBE_append (a b : List Byte) : unBE (a ++ b) = unBE a * 256 ^ b.length + unBE b := by
  rw [unBE, List.foldl_append, foldl_unBE]
  rfl

/-- The four bytes of a word read back as the word. -/
@[simp] theorem wordOfBytes_wordBytes (w : Word) : wordOfBytes (wordBytes w) = w := by
  apply BitVec.eq_of_toNat_eq
  have := w.isLt
  simp only [wordOfBytes, wordBytes, unBE, List.foldl_cons, List.foldl_nil, BitVec.toNat_ofNat,
    BitVec.extractLsb'_toNat, Nat.shiftRight_eq_div_pow]
  omega

/-- A word's bytes are `BE_4` of its value. -/
theorem wordBytes_eq_beBytes (w : Word) : wordBytes w = beBytes 4 w.toNat := by
  have h := beBytes_unBE (wordBytes w)
  have h2 : unBE (wordBytes w) = w.toNat := by
    have h3 := congrArg BitVec.toNat (wordOfBytes_wordBytes w)
    rw [wordOfBytes, BitVec.toNat_ofNat] at h3
    have := unBE_lt (wordBytes w)
    rw [length_wordBytes] at this
    omega
  rw [h2] at h
  exact h.symm

/-- Four bytes are the bytes of the word they read as. -/
theorem wordBytes_wordOfBytes {b : List Byte} (h : b.length = 4) : wordBytes (wordOfBytes b) = b := by
  rw [wordBytes_eq_beBytes, wordOfBytes, BitVec.toNat_ofNat, Nat.mod_eq_of_lt, ← h, beBytes_unBE]
  have := unBE_lt b
  rw [h] at this
  omega

theorem length_flatMap_wordBytes (l : List Word) : (l.flatMap wordBytes).length = 4 * l.length := by
  induction l with
  | nil => rfl
  | cons w l ih => simp [List.flatMap_cons, ih]; omega

/-- Byte k of the bytes of a list of words is in word `k div 4` (R49). -/
theorem getElem?_flatMap_wordBytes (l : List Word) (k : Nat) :
    (l.flatMap wordBytes)[k]? = l[k / 4]?.map fun w => w.extractLsb' (24 - 8 * (k % 4)) 8 := by
  induction l generalizing k with
  | nil => simp
  | cons w l ih =>
    rw [List.flatMap_cons]
    by_cases hk : k < 4
    · rw [List.getElem?_append_left (by simpa using hk)]
      have : k / 4 = 0 := by omega
      rw [this]
      interval_cases k <;> rfl
    · rw [List.getElem?_append_right (by simpa using Nat.le_of_not_lt hk), length_wordBytes, ih]
      have h1 : k / 4 = (k - 4) / 4 + 1 := by omega
      have h2 : (k - 4) % 4 = k % 4 := by omega
      rw [h1, h2, List.getElem?_cons_succ]

/-- Word i of the bytes of a list of words is word i of the list. -/
theorem slice_flatMap_wordBytes {l : List Word} {i : Nat} (h : i < l.length) :
    slice (l.flatMap wordBytes) (4 * i) 4 = wordBytes l[i] := by
  induction l generalizing i with
  | nil => simp at h
  | cons w l ih =>
    cases i with
    | zero => simp [slice, List.flatMap_cons, wordBytes]
    | succ i =>
      rw [List.flatMap_cons, slice, show 4 * (i + 1) = (wordBytes w).length + 4 * i by simp; omega,
        List.drop_length_add_append]
      exact ih (by simpa using h)

@[simp] theorem length_windowBytes (v : Vector Word 16) : (windowBytes v).length = 64 := by
  rw [windowBytes, length_flatMap_wordBytes, Vector.length_toList]

@[simp] theorem length_msgBytes (s : State) : (msgBytes s).length = 64 := length_windowBytes _

@[simp] theorem length_keyBytes (s : State) : (keyBytes s).length = 64 := length_windowBytes _

/-- MSGi is word i of the block (R49). -/
theorem wordAt_windowBytes (v : Vector Word 16) (i : Fin 16) : wordAt (windowBytes v) i.val = v[i] := by
  rw [wordAt, windowBytes, slice_flatMap_wordBytes (by simp [i.isLt]), wordOfBytes_wordBytes]
  simp

theorem length_msgTail {n : BitVec 7} (s : State) (h : n ≤ 64) : (msgTail n s).length = n.toNat := by
  have : n.toNat ≤ 64 := h
  simp [msgTail, this]

theorem length_msgTail_le (n : BitVec 7) (s : State) : (msgTail n s).length ≤ 64 := by simp [msgTail]

theorem length_keyOperand {s : State} (h : s.keylen ≤ 64) : (keyOperand s).length = s.keylen.toNat := by
  have : s.keylen.toNat ≤ 64 := h
  simp [keyOperand, this]

/-- The latch holds the key and zeros past it (R36). -/
theorem latchedKey_toList {s : State} (h : s.keylen ≤ 64) :
    (latchedKey s).toList = keyOperand s ++ List.replicate (64 - s.keylen.toNat) 0 := by
  have hk : s.keylen.toNat ≤ 64 := h
  have hl := length_keyOperand h
  apply List.ext_getElem?
  intro i
  by_cases hi : i < 64
  · rw [List.getElem?_eq_getElem (by simpa using hi)]
    simp only [latchedKey, Vector.getElem_toList, Vector.getElem_ofFn]
    by_cases hlt : i < s.keylen.toNat
    · rw [if_pos hlt, List.getElem?_append_left (by omega), keyOperand, List.getElem?_take_of_lt hlt,
        List.getD_eq_getElem?_getD, List.getElem?_eq_getElem (by simpa using hi)]
      rfl
    · rw [if_neg hlt, List.getElem?_append_right (by omega), List.getElem?_replicate, if_pos (by omega)]
  · rw [List.getElem?_eq_none (by simp; omega), List.getElem?_eq_none (by simp; omega)]

/-- Only the first KEYLEN bytes of KEY are latched (R36). -/
theorem latchedKey_congr {s t : State} (hl : s.keylen = t.keylen) (hk : keyOperand s = keyOperand t) :
    latchedKey s = latchedKey t := by
  apply Vector.ext
  intro i hi
  simp only [latchedKey, Vector.getElem_ofFn, hl]
  split
  · rename_i h
    have h1 : (keyOperand s)[i]? = (keyOperand t)[i]? := by rw [hk]
    rw [keyOperand, keyOperand, hl, List.getElem?_take_of_lt h, List.getElem?_take_of_lt h] at h1
    rw [List.getD_eq_getElem?_getD, List.getD_eq_getElem?_getD, h1]
  · rfl

theorem getWord_setWord_self (w : Vector Word 16) (i : BitVec 4) (v : Word) : getWord (setWord w i v) i = v := by
  simp [getWord, setWord]

theorem getWord_setWord_ne (w : Vector Word 16) {i j : BitVec 4} (v : Word) (h : i ≠ j) :
    getWord (setWord w i v) j = getWord w j := by
  have : i.toNat ≠ j.toNat := fun e => h (BitVec.eq_of_toNat_eq e)
  simp [getWord, setWord, this]

/-- A write to register i of a window sets its four bytes and no other (R110, R111). -/
theorem getElem?_windowBytes_setWord (w : Vector Word 16) (i : BitVec 4) (v : Word) {k : Nat} (hk : k < 64) :
    (windowBytes (setWord w i v))[k]? =
      if k / 4 = i.toNat then some (v.extractLsb' (24 - 8 * (k % 4)) 8) else (windowBytes w)[k]? := by
  have hk4 : k / 4 < 16 := by omega
  simp only [windowBytes, getElem?_flatMap_wordBytes, setWord]
  split
  · rename_i h
    simp [h, i.isLt]
  · rename_i h
    congr 1
    simp [Vector.getElem?_toList, Ne.symm h]

end Sys2Proof.Machine
end

