-- ==== Sys2Proof/Laws/Decode.lean ====
section
/-! SUPPORT. The fields of a command word, and that `commandOf` and `cmdWord` are each other's inverse. -/

namespace Sys2Proof

theorem opOfCode_opCode (op : Op) : opOfCode (opCode op) = some op := by cases op <;> rfl

theorem opCode_of_opOfCode {c : BitVec 4} {op : Op} (h : opOfCode c = some op) : opCode op = c := by
  revert h
  cases op <;> revert c <;> decide

theorem opOfCode_eq_none {c : BitVec 4} : opOfCode c = none ↔ c = 0 ∨ 8 ≤ c := by
  revert c
  decide

@[simp] theorem fieldOp_cmdWord (op : Op) (n : BitVec 7) : fieldOp (cmdWord op n) = opCode op := by
  cases op <;> revert n <;> decide

@[simp] theorem fieldNbytes_cmdWord (op : Op) (n : BitVec 7) : fieldNbytes (cmdWord op n) = n := by
  cases op <;> revert n <;> decide

@[simp] theorem fieldRsv0_cmdWord (op : Op) (n : BitVec 7) : fieldRsv0 (cmdWord op n) = 0 := by
  cases op <;> revert n <;> decide

@[simp] theorem fieldRsv1_cmdWord (op : Op) (n : BitVec 7) : fieldRsv1 (cmdWord op n) = 0 := by
  cases op <;> revert n <;> decide

/-- The word of a command that takes a count reads back as that command and count. -/
theorem commandOf_cmdWord {op : Op} (n : BitVec 7) (h : takesCount op = true) :
    commandOf (cmdWord op n) = some (op, n) := by
  simp [commandOf, opOfCode_opCode, h]

/-- The word of any command with the count 0 reads back as that command. -/
theorem commandOf_cmdWord_zero (op : Op) : commandOf (cmdWord op 0) = some (op, 0) := by
  simp [commandOf, opOfCode_opCode]

/-- A word is its four fields put together. -/
theorem word_of_fields (v : Word) :
    v = (fieldOp v).zeroExtend 32 ||| ((fieldRsv0 v).zeroExtend 32 <<< 4) |||
      ((fieldNbytes v).zeroExtend 32 <<< 8) ||| ((fieldRsv1 v).zeroExtend 32 <<< 15) := by
  apply BitVec.eq_of_getLsbD_eq
  intro i hi
  simp only [fieldOp, fieldRsv0, fieldNbytes, fieldRsv1, BitVec.getLsbD_or, BitVec.getLsbD_setWidth,
    BitVec.getLsbD_shiftLeft, BitVec.getLsbD_extractLsb', BitVec.truncate_eq_setWidth]
  interval_cases i <;> simp

/-- What `commandOf` accepts: the fields it read, the reserved bits 0, and no count where none is taken. -/
theorem commandOf_eq_some {v : Word} {op : Op} {n : BitVec 7} (h : commandOf v = some (op, n)) :
    opCode op = fieldOp v ∧ fieldRsv0 v = 0 ∧ fieldRsv1 v = 0 ∧ n = fieldNbytes v ∧
      (takesCount op = false → n = 0) := by
  unfold commandOf at h
  split at h
  · cases h
  · rename_i op' hop
    split at h
    · cases h
    · rename_i hr
      split at h
      · cases h
      · rename_i hn
        cases h
        refine ⟨opCode_of_opOfCode hop, ?_, ?_, rfl, ?_⟩
        · by_contra hc; exact hr (.inl hc)
        · by_contra hc; exact hr (.inr hc)
        · intro ht; by_contra hc; exact hn ⟨ht, hc⟩

/-- A legal word is the word of the command it reads as. -/
theorem cmdWord_of_commandOf {v : Word} {op : Op} {n : BitVec 7} (h : commandOf v = some (op, n)) :
    cmdWord op n = v := by
  obtain ⟨ho, h0, h1, hn, -⟩ := commandOf_eq_some h
  conv_rhs => rw [word_of_fields v, h0, h1, ← ho, ← hn]
  simp [cmdWord]

/-- A word of a command, by its fields. -/
theorem commandOf_of_fields {v : Word} {op : Op} (ho : fieldOp v = opCode op) (h0 : fieldRsv0 v = 0)
    (h1 : fieldRsv1 v = 0) (hn : takesCount op = true ∨ fieldNbytes v = 0) :
    commandOf v = some (op, fieldNbytes v) := by
  rcases hn with hn | hn <;> simp [commandOf, ho, opOfCode_opCode, h0, h1, hn]

theorem commandOf_eq_none {v : Word} : commandOf v = none ↔
    opOfCode (fieldOp v) = none ∨ fieldRsv0 v ≠ 0 ∨ fieldRsv1 v ≠ 0 ∨
      (∃ op, opOfCode (fieldOp v) = some op ∧ takesCount op = false ∧ fieldNbytes v ≠ 0) := by
  unfold commandOf
  split
  · simp [*]
  · rename_i op hop
    split
    · rename_i h
      rcases h with h | h <;> simp_all
    · rename_i h
      push Not at h
      split <;> simp_all

/-! ## Bus writes -/

theorem decode_write_offCmd (v : Word) : decode (busWrite offCmd v) = .ok (.wrCmd v) := by
  simp [decode, decodeBus, busWrite, decodeWrite, offCmd]

theorem decode_write_offCfg (v : Word) : decode (busWrite offCfg v) = .ok (.wrCfg v) := by
  simp [decode, decodeBus, busWrite, decodeWrite, offCmd, offCfg]

theorem decode_write_offIrqEn (v : Word) : decode (busWrite offIrqEn v) = .ok (.wrIrqEn v) := by
  simp [decode, decodeBus, busWrite, decodeWrite, offCmd, offCfg, offIrqEn]

theorem decode_write_offKeylen (v : Word) : decode (busWrite offKeylen v) = .ok (.wrKeylen v) := by
  simp [decode, decodeBus, busWrite, decodeWrite, offCmd, offCfg, offIrqEn, offKeylen]

theorem decode_write_offCounter (v : Word) : decode (busWrite offCounter v) = .ok (.wrCounter v) := by
  simp [decode, decodeBus, busWrite, decodeWrite, offCmd, offCfg, offIrqEn, offKeylen, offCounter]

theorem decode_write_offMsg (i : BitVec 4) (v : Word) :
    decode (busWrite (windowOffset offMsg i) v) = .ok (.wrMsg i v) := by
  have hk : ∀ i : BitVec 4, (windowOffset offMsg i).extractLsb' 0 2 = 0 ∧ windowOffset offMsg i ≠ offCmd ∧
      windowOffset offMsg i ≠ offCfg ∧ windowOffset offMsg i ≠ offIrqEn ∧ windowOffset offMsg i ≠ offKeylen ∧
      windowOffset offMsg i ≠ offCounter ∧ windowOf (windowOffset offMsg i) = 1 ∧
      windowIndex (windowOffset offMsg i) = i := by decide
  simp [decode, decodeBus, busWrite, decodeWrite, hk i]

theorem decode_write_offKey (i : BitVec 4) (v : Word) :
    decode (busWrite (windowOffset offKey i) v) = .ok (.wrKey i v) := by
  have hk : ∀ i : BitVec 4, (windowOffset offKey i).extractLsb' 0 2 = 0 ∧ windowOffset offKey i ≠ offCmd ∧
      windowOffset offKey i ≠ offCfg ∧ windowOffset offKey i ≠ offIrqEn ∧ windowOffset offKey i ≠ offKeylen ∧
      windowOffset offKey i ≠ offCounter ∧ windowOf (windowOffset offKey i) = 2 ∧
      windowIndex (windowOffset offKey i) = i := by decide
  simp [decode, decodeBus, busWrite, decodeWrite, hk i]

/-! ## Illegal words -/

/-- The instruction of a word that is no command is the illegal row it matches. -/
theorem decodeCmd_of_none {v : Word} (h : commandOf v = none) :
    decodeCmd v = if fieldOp v = 0 then .illegalOp0 v
      else if 8 ≤ fieldOp v then .illegalOp8To15 v else .illegalReserved v := by
  simp [decodeCmd, h]

theorem decodeCmd_of_some {v : Word} {op : Op} {n : BitVec 7} (h : commandOf v = some (op, n)) :
    decodeCmd v = commandInstr op n := by
  simp [decodeCmd, h]

end Sys2Proof
end

