-- ==== Sys2Proof/Laws/Digest.lean ====
section
/-! SUPPORT. Lengths, block decomposition and serialisation of the pure functions. -/

namespace Sys2Proof.Machine

/-! ## The schedule and the padding -/

theorem length_extendSchedule (k : Nat) (l : List Word) : (extendSchedule k l).length = k + l.length := by
  induction k generalizing l with
  | zero => simp [extendSchedule]
  | succ k ih => rw [extendSchedule, ih, List.length_cons]; omega

/-- The words a schedule starts from are kept, behind the new ones. -/
theorem drop_extendSchedule (k : Nat) (l : List Word) : (extendSchedule k l).drop k = l := by
  induction k generalizing l with
  | zero => rfl
  | succ k ih =>
    have h := ih (rotl 1 (l.getD 2 0 ^^^ l.getD 7 0 ^^^ l.getD 13 0 ^^^ l.getD 15 0) :: l)
    rw [extendSchedule, ← List.drop_drop, h]
    rfl

/-- Each new word is made from the four before it at the offsets of R70 (counted from the newest). -/
theorem getD_extendSchedule (k : Nat) (l : List Word) {j : Nat} (hj : j < k) :
    (extendSchedule k l).getD j 0 =
      rotl 1 ((extendSchedule k l).getD (j + 3) 0 ^^^ (extendSchedule k l).getD (j + 8) 0 ^^^
        (extendSchedule k l).getD (j + 14) 0 ^^^ (extendSchedule k l).getD (j + 16) 0) := by
  induction k generalizing l with
  | zero => omega
  | succ k ih =>
    by_cases h : j < k
    · exact ih _ h
    · have hjk : j = k := by omega
      subst hjk
      have hd := drop_extendSchedule j
        (rotl 1 (l.getD 2 0 ^^^ l.getD 7 0 ^^^ l.getD 13 0 ^^^ l.getD 15 0) :: l)
      have hg : ∀ i, (extendSchedule (j + 1) l).getD (j + i) 0 =
          (rotl 1 (l.getD 2 0 ^^^ l.getD 7 0 ^^^ l.getD 13 0 ^^^ l.getD 15 0) :: l).getD i 0 := by
        intro i
        rw [← hd, List.getD_eq_getElem?_getD, List.getD_eq_getElem?_getD, List.getElem?_drop]
        rfl
      rw [hg 3, hg 8, hg 14, hg 16, show j = j + 0 by rfl, hg 0]
      rfl

@[simp] theorem length_schedule (m : List Byte) : (schedule m).length = 80 := by
  simp [schedule, length_extendSchedule]

/-- The last of the rounds. -/
theorem rounds_append_one (t : Nat) (l : List Word) (w : Word) (v : Vars) :
    rounds t (l ++ [w]) v = roundStep (t + l.length) w (rounds t l v) := by
  induction l generalizing t v with
  | nil => rfl
  | cons x l ih =>
    rw [List.cons_append, rounds, ih, rounds, List.length_cons, Nat.add_right_comm, Nat.add_assoc]

/-- The padding has one block or two (R74). -/
theorem length_pad {t : List Byte} (len : BitVec 64) (h : t.length ≤ 63) :
    (pad t len).length = if t.length ≤ 55 then 64 else 128 := by
  unfold pad
  split <;> simp <;> omega

/-! ## Blocks -/

@[simp] theorem compressBlocks_zero (h : Digest) (b : List Byte) : compressBlocks h b 0 = h := rfl

/-- Blocks are compressed in order. -/
theorem compressBlocks_succ (h : Digest) (b : List Byte) (k : Nat) :
    compressBlocks h b (k + 1) = compress (compressBlocks h b k) (slice b (64 * k) 64) := by
  simp [compressBlocks, List.range_succ]

theorem compressBlocks_one (h : Digest) (b : List Byte) : compressBlocks h b 1 = compress h (b.take 64) := by
  rw [show 1 = 0 + 1 from rfl, compressBlocks_succ]
  rfl

/-- Whole blocks followed by more blocks. -/
theorem compressBlocks_append (h : Digest) {a : List Byte} {k : Nat} (ha : a.length = 64 * k) (b : List Byte) (j : Nat) :
    compressBlocks h (a ++ b) (k + j) = compressBlocks (compressBlocks h a k) b j := by
  induction j with
  | zero =>
    have key : ∀ i, i ≤ k → compressBlocks h (a ++ b) i = compressBlocks h a i := by
      intro i
      induction i with
      | zero => intro _; rw [compressBlocks_zero, compressBlocks_zero]
      | succ i ih =>
        intro hi
        rw [compressBlocks_succ, compressBlocks_succ, ih (by omega)]
        congr 1
        rw [slice, slice, List.drop_append_of_le_length (by omega), List.take_append_of_le_length (by simp; omega)]
    simpa using key k le_rfl
  | succ j ih =>
    rw [← Nat.add_assoc, compressBlocks_succ, compressBlocks_succ, ih]
    congr 1
    rw [slice, slice, show 64 * (k + j) = a.length + 64 * j by omega, List.drop_length_add_append]

/-- A single block. -/
theorem compressBlocks_single (h : Digest) {b : List Byte} (hb : b.length = 64) : compressBlocks h b 1 = compress h b := by
  rw [compressBlocks_one, List.take_of_length_le (by omega)]

/-- A block of 64 bytes given to `Finish` is compressed first (R75). -/
theorem finish_block (h : Digest) {t : List Byte} (len : BitVec 64) (ht : t.length = 64) :
    finish h t len = finish (compress h t) [] len := by
  simp [finish, ht]

/-- `SHA1` over whole blocks and a tail of at most 64 bytes (R75, R77). -/
theorem sha1State_append {a : List Byte} {k : Nat} (ha : a.length = 64 * k) {t : List Byte} (ht : t.length ≤ 64) :
    sha1State (a ++ t) = finish (compressBlocks iv a k) t (bitLength (a.length + t.length)) := by
  by_cases h64 : t.length = 64
  · rw [finish_block _ _ h64, ← compressBlocks_single (compressBlocks iv a k) h64,
      ← compressBlocks_append iv ha t 1, sha1State]
    have hd : (a ++ t).length / 64 = k + 1 := by simp [ha, h64]
    rw [hd, List.drop_of_length_le (by simp; omega), List.length_append]
  · have hd : (a ++ t).length / 64 = k + 0 := by simp [ha]; omega
    rw [sha1State, hd, compressBlocks_append iv ha, compressBlocks_zero, Nat.add_zero, ← ha, List.drop_left,
      List.length_append]

/-! ## Serialisation -/

@[simp] theorem length_ser (h : Digest) : (ser h).length = 20 := rfl

theorem ser_eq_flatMap (h : Digest) : ser h = [h.h0, h.h1, h.h2, h.h3, h.h4].flatMap wordBytes := by
  simp [ser]

/-- The accumulator is read back from its serialisation. -/
@[simp] theorem unSer_ser (h : Digest) : unSer (ser h) = h := by
  have key : ∀ i (hi : i < 5), wordAt (ser h) i = [h.h0, h.h1, h.h2, h.h3, h.h4][i] := by
    intro i hi
    rw [wordAt, ser_eq_flatMap, slice_flatMap_wordBytes (by simpa using hi), wordOfBytes_wordBytes]
  simp [unSer, key]

/-- Twenty bytes are the serialisation of the accumulator they are read into. -/
theorem ser_unSer {b : List Byte} (hb : b.length = 20) : ser (unSer b) = b := by
  have h4 : ∀ i, i < 5 → (slice b (4 * i) 4).length = 4 := by
    intro i hi
    rw [slice_length]; omega
  simp only [ser, unSer, wordAt]
  rw [wordBytes_wordOfBytes (h4 0 (by omega)), wordBytes_wordOfBytes (h4 1 (by omega)),
    wordBytes_wordOfBytes (h4 2 (by omega)), wordBytes_wordOfBytes (h4 3 (by omega)),
    wordBytes_wordOfBytes (h4 4 (by omega))]
  simp only [slice]
  conv_rhs => rw [← List.take_append_drop 4 b, ← List.take_append_drop 4 (b.drop 4),
    ← List.take_append_drop 4 ((b.drop 4).drop 4), ← List.take_append_drop 4 (((b.drop 4).drop 4).drop 4)]
  simp only [List.drop_drop, List.append_assoc]
  simp
  omega

@[simp] theorem length_sha1 (m : List Byte) : (sha1 m).length = 20 := rfl

@[simp] theorem length_hmac (k m : List Byte) : (hmac k m).length = 20 := rfl

@[simp] theorem length_keyPad (c : Byte) (k : List Byte) : (keyPad c k).length = 64 := by simp [keyPad]

@[simp] theorem length_ipad (k : List Byte) : (ipad k).length = 64 := length_keyPad _ _

@[simp] theorem length_opad (k : List Byte) : (opad k).length = 64 := length_keyPad _ _

/-- Zero bytes past the key leave the pad unchanged (R86). -/
theorem keyPad_append_zeros (c : Byte) (k : List Byte) (n : Nat) :
    keyPad c (k ++ List.replicate n 0) = keyPad c k := by
  apply List.map_congr_left
  intro i _
  by_cases h : i < k.length
  · rw [if_pos (by simp; omega), if_pos h, List.getD_append _ _ _ _ h]
  · rw [if_neg h]
    split
    · rw [List.getD_append_right _ _ _ _ (by omega), List.getD_eq_getElem?_getD, List.getElem?_replicate]
      split <;> simp
    · rfl

/-! ## The token -/

theorem truncOffset_lt (mac : List Byte) : truncOffset mac < 16 := by
  rw [truncOffset, BitVec.toNat_and]
  exact Nat.lt_of_le_of_lt Nat.and_le_right (by decide)

/-- "clear the sign bit" (R96). -/
theorem truncate_lt (mac : List Byte) : (truncate mac).toNat < 2 ^ 31 := by
  rw [truncate, BitVec.toNat_and]
  exact Nat.lt_of_le_of_lt Nat.and_le_right (by decide)

theorem truncate_msb (mac : List Byte) : (truncate mac).getLsbD 31 = false := by
  simp [truncate]

/-- The code does not exceed the number it is reduced from (R25). -/
theorem code_le (v : Word) (d : Nat) : (code v d).toNat ≤ v.toNat := by
  rw [code, BitVec.toNat_ofNat]
  exact (Nat.mod_le _ _).trans (Nat.mod_le _ _)

@[simp] theorem length_decimalString (v : Word) (d : Nat) : (decimalString v d).length = d := by simp [decimalString]

/-- Every character is a decimal digit (R98). -/
theorem decimalString_digit {v : Word} {d : Nat} {x : Byte} (h : x ∈ decimalString v d) : 0x30 ≤ x ∧ x ≤ 0x39 := by
  simp only [decimalString, List.mem_map, List.mem_range] at h
  obtain ⟨j, -, rfl⟩ := h
  have : v.toNat / 10 ^ (d - 1 - j) % 10 < 10 := Nat.mod_lt _ (by decide)
  constructor <;> rw [BitVec.le_def, BitVec.toNat_ofNat] <;> simp <;> omega

/-- TSTR holds the string and zeros past it (R103). -/
theorem tokenBuffer_toList {s : List Byte} (h : s.length ≤ 12) :
    (tokenBuffer s).toList = s ++ List.replicate (12 - s.length) 0 := by
  apply List.ext_getElem?
  intro i
  by_cases hi : i < 12
  · rw [List.getElem?_eq_getElem (by simpa using hi)]
    simp only [tokenBuffer, Vector.getElem_toList, Vector.getElem_ofFn, List.getD_eq_getElem?_getD]
    by_cases hlt : i < s.length
    · rw [List.getElem?_append_left hlt, List.getElem?_eq_getElem hlt]
      rfl
    · rw [List.getElem?_append_right (by omega), List.getElem?_replicate, if_pos (by omega),
        List.getElem?_eq_none (by omega)]
      rfl
  · rw [List.getElem?_eq_none (by simp; omega), List.getElem?_eq_none (by simp; omega)]

end Sys2Proof.Machine
end

