-- ==== Sys2Proof/Laws/State.lean ====
section
/-! SUPPORT. What each named update of the state does to each field: one lemma per field per update, true by rfl. -/

namespace Sys2Proof.Machine

/-! ## `raiseError` -/

@[simp] theorem raiseError_done (c : ErrCode) (s : State) : (raiseError c s).done = s.done := rfl
@[simp] theorem raiseError_err (c : ErrCode) (s : State) : (raiseError c s).err = true := rfl
@[simp] theorem raiseError_mode (c : ErrCode) (s : State) : (raiseError c s).mode = s.mode := rfl
@[simp] theorem raiseError_dvalid (c : ErrCode) (s : State) : (raiseError c s).dvalid = s.dvalid := rfl
@[simp] theorem raiseError_tvalid (c : ErrCode) (s : State) : (raiseError c s).tvalid = s.tvalid := rfl
@[simp] theorem raiseError_errcode (c : ErrCode) (s : State) : (raiseError c s).errcode = (if s.err then s.errcode else c) := rfl
@[simp] theorem raiseError_pend (c : ErrCode) (s : State) : (raiseError c s).pend = s.pend := rfl
@[simp] theorem raiseError_digits (c : ErrCode) (s : State) : (raiseError c s).digits = s.digits := rfl
@[simp] theorem raiseError_lock (c : ErrCode) (s : State) : (raiseError c s).lock = s.lock := rfl
@[simp] theorem raiseError_irqEn (c : ErrCode) (s : State) : (raiseError c s).irqEn = s.irqEn := rfl
@[simp] theorem raiseError_keylen (c : ErrCode) (s : State) : (raiseError c s).keylen = s.keylen := rfl
@[simp] theorem raiseError_counter (c : ErrCode) (s : State) : (raiseError c s).counter = s.counter := rfl
@[simp] theorem raiseError_tlen (c : ErrCode) (s : State) : (raiseError c s).tlen = s.tlen := rfl
@[simp] theorem raiseError_msg (c : ErrCode) (s : State) : (raiseError c s).msg = s.msg := rfl
@[simp] theorem raiseError_key (c : ErrCode) (s : State) : (raiseError c s).key = s.key := rfl
@[simp] theorem raiseError_ksave (c : ErrCode) (s : State) : (raiseError c s).ksave = s.ksave := rfl
@[simp] theorem raiseError_h (c : ErrCode) (s : State) : (raiseError c s).h = s.h := rfl
@[simp] theorem raiseError_truncv (c : ErrCode) (s : State) : (raiseError c s).truncv = s.truncv := rfl
@[simp] theorem raiseError_tokenv (c : ErrCode) (s : State) : (raiseError c s).tokenv = s.tokenv := rfl
@[simp] theorem raiseError_tstr (c : ErrCode) (s : State) : (raiseError c s).tstr = s.tstr := rfl
@[simp] theorem raiseError_agent (c : ErrCode) (s : State) : (raiseError c s).agent = s.agent := rfl
@[simp] theorem raiseError_rdata (c : ErrCode) (s : State) : (raiseError c s).rdata = s.rdata := rfl
@[simp] theorem raiseError_inputs (c : ErrCode) (s : State) : (raiseError c s).inputs = s.inputs := rfl
@[simp] theorem raiseError_busy (c : ErrCode) (s : State) : (raiseError c s).busy = s.busy := rfl

/-! ## `clearError` -/

@[simp] theorem clearError_done (s : State) : (clearError s).done = s.done := rfl
@[simp] theorem clearError_err (s : State) : (clearError s).err = false := rfl
@[simp] theorem clearError_mode (s : State) : (clearError s).mode = s.mode := rfl
@[simp] theorem clearError_dvalid (s : State) : (clearError s).dvalid = s.dvalid := rfl
@[simp] theorem clearError_tvalid (s : State) : (clearError s).tvalid = s.tvalid := rfl
@[simp] theorem clearError_errcode (s : State) : (clearError s).errcode = .none := rfl
@[simp] theorem clearError_pend (s : State) : (clearError s).pend = s.pend := rfl
@[simp] theorem clearError_digits (s : State) : (clearError s).digits = s.digits := rfl
@[simp] theorem clearError_lock (s : State) : (clearError s).lock = s.lock := rfl
@[simp] theorem clearError_irqEn (s : State) : (clearError s).irqEn = s.irqEn := rfl
@[simp] theorem clearError_keylen (s : State) : (clearError s).keylen = s.keylen := rfl
@[simp] theorem clearError_counter (s : State) : (clearError s).counter = s.counter := rfl
@[simp] theorem clearError_tlen (s : State) : (clearError s).tlen = s.tlen := rfl
@[simp] theorem clearError_msg (s : State) : (clearError s).msg = s.msg := rfl
@[simp] theorem clearError_key (s : State) : (clearError s).key = s.key := rfl
@[simp] theorem clearError_ksave (s : State) : (clearError s).ksave = s.ksave := rfl
@[simp] theorem clearError_h (s : State) : (clearError s).h = s.h := rfl
@[simp] theorem clearError_truncv (s : State) : (clearError s).truncv = s.truncv := rfl
@[simp] theorem clearError_tokenv (s : State) : (clearError s).tokenv = s.tokenv := rfl
@[simp] theorem clearError_tstr (s : State) : (clearError s).tstr = s.tstr := rfl
@[simp] theorem clearError_agent (s : State) : (clearError s).agent = s.agent := rfl
@[simp] theorem clearError_rdata (s : State) : (clearError s).rdata = s.rdata := rfl
@[simp] theorem clearError_inputs (s : State) : (clearError s).inputs = s.inputs := rfl
@[simp] theorem clearError_busy (s : State) : (clearError s).busy = s.busy := rfl

/-! ## `acceptCommand` -/

@[simp] theorem acceptCommand_done (p : Pending) (s : State) : (acceptCommand p s).done = false := rfl
@[simp] theorem acceptCommand_err (p : Pending) (s : State) : (acceptCommand p s).err = s.err := rfl
@[simp] theorem acceptCommand_mode (p : Pending) (s : State) : (acceptCommand p s).mode = s.mode := rfl
@[simp] theorem acceptCommand_dvalid (p : Pending) (s : State) : (acceptCommand p s).dvalid = false := rfl
@[simp] theorem acceptCommand_tvalid (p : Pending) (s : State) : (acceptCommand p s).tvalid = false := rfl
@[simp] theorem acceptCommand_errcode (p : Pending) (s : State) : (acceptCommand p s).errcode = s.errcode := rfl
@[simp] theorem acceptCommand_pend (p : Pending) (s : State) : (acceptCommand p s).pend = some p := rfl
@[simp] theorem acceptCommand_digits (p : Pending) (s : State) : (acceptCommand p s).digits = s.digits := rfl
@[simp] theorem acceptCommand_lock (p : Pending) (s : State) : (acceptCommand p s).lock = s.lock := rfl
@[simp] theorem acceptCommand_irqEn (p : Pending) (s : State) : (acceptCommand p s).irqEn = s.irqEn := rfl
@[simp] theorem acceptCommand_keylen (p : Pending) (s : State) : (acceptCommand p s).keylen = s.keylen := rfl
@[simp] theorem acceptCommand_counter (p : Pending) (s : State) : (acceptCommand p s).counter = s.counter := rfl
@[simp] theorem acceptCommand_tlen (p : Pending) (s : State) : (acceptCommand p s).tlen = s.tlen := rfl
@[simp] theorem acceptCommand_msg (p : Pending) (s : State) : (acceptCommand p s).msg = s.msg := rfl
@[simp] theorem acceptCommand_key (p : Pending) (s : State) : (acceptCommand p s).key = s.key := rfl
@[simp] theorem acceptCommand_ksave (p : Pending) (s : State) : (acceptCommand p s).ksave = s.ksave := rfl
@[simp] theorem acceptCommand_h (p : Pending) (s : State) : (acceptCommand p s).h = s.h := rfl
@[simp] theorem acceptCommand_truncv (p : Pending) (s : State) : (acceptCommand p s).truncv = s.truncv := rfl
@[simp] theorem acceptCommand_tokenv (p : Pending) (s : State) : (acceptCommand p s).tokenv = s.tokenv := rfl
@[simp] theorem acceptCommand_tstr (p : Pending) (s : State) : (acceptCommand p s).tstr = s.tstr := rfl
@[simp] theorem acceptCommand_agent (p : Pending) (s : State) : (acceptCommand p s).agent = s.agent := rfl
@[simp] theorem acceptCommand_rdata (p : Pending) (s : State) : (acceptCommand p s).rdata = s.rdata := rfl
@[simp] theorem acceptCommand_inputs (p : Pending) (s : State) : (acceptCommand p s).inputs = s.inputs := rfl
@[simp] theorem acceptCommand_busy (p : Pending) (s : State) : (acceptCommand p s).busy = true := rfl

/-! ## `finishCommand` -/

@[simp] theorem finishCommand_done (s : State) : (finishCommand s).done = true := rfl
@[simp] theorem finishCommand_err (s : State) : (finishCommand s).err = s.err := rfl
@[simp] theorem finishCommand_mode (s : State) : (finishCommand s).mode = s.mode := rfl
@[simp] theorem finishCommand_dvalid (s : State) : (finishCommand s).dvalid = s.dvalid := rfl
@[simp] theorem finishCommand_tvalid (s : State) : (finishCommand s).tvalid = s.tvalid := rfl
@[simp] theorem finishCommand_errcode (s : State) : (finishCommand s).errcode = s.errcode := rfl
@[simp] theorem finishCommand_pend (s : State) : (finishCommand s).pend = none := rfl
@[simp] theorem finishCommand_digits (s : State) : (finishCommand s).digits = s.digits := rfl
@[simp] theorem finishCommand_lock (s : State) : (finishCommand s).lock = s.lock := rfl
@[simp] theorem finishCommand_irqEn (s : State) : (finishCommand s).irqEn = s.irqEn := rfl
@[simp] theorem finishCommand_keylen (s : State) : (finishCommand s).keylen = s.keylen := rfl
@[simp] theorem finishCommand_counter (s : State) : (finishCommand s).counter = s.counter := rfl
@[simp] theorem finishCommand_tlen (s : State) : (finishCommand s).tlen = s.tlen := rfl
@[simp] theorem finishCommand_msg (s : State) : (finishCommand s).msg = s.msg := rfl
@[simp] theorem finishCommand_key (s : State) : (finishCommand s).key = s.key := rfl
@[simp] theorem finishCommand_ksave (s : State) : (finishCommand s).ksave = s.ksave := rfl
@[simp] theorem finishCommand_h (s : State) : (finishCommand s).h = s.h := rfl
@[simp] theorem finishCommand_truncv (s : State) : (finishCommand s).truncv = s.truncv := rfl
@[simp] theorem finishCommand_tokenv (s : State) : (finishCommand s).tokenv = s.tokenv := rfl
@[simp] theorem finishCommand_tstr (s : State) : (finishCommand s).tstr = s.tstr := rfl
@[simp] theorem finishCommand_agent (s : State) : (finishCommand s).agent = s.agent := rfl
@[simp] theorem finishCommand_rdata (s : State) : (finishCommand s).rdata = s.rdata := rfl
@[simp] theorem finishCommand_inputs (s : State) : (finishCommand s).inputs = s.inputs := rfl
@[simp] theorem finishCommand_busy (s : State) : (finishCommand s).busy = false := rfl

/-! ## `resetBlock` -/

@[simp] theorem resetBlock_agent (s : State) : (resetBlock s).agent = s.agent := rfl
@[simp] theorem resetBlock_rdata (s : State) : (resetBlock s).rdata = s.rdata := rfl
@[simp] theorem resetBlock_inputs (s : State) : (resetBlock s).inputs = s.inputs := rfl
@[simp] theorem resetBlock_pend (s : State) : (resetBlock s).pend = none := rfl
@[simp] theorem resetBlock_busy (s : State) : (resetBlock s).busy = false := rfl
@[simp] theorem resetBlock_err (s : State) : (resetBlock s).err = false := rfl
@[simp] theorem resetBlock_errcode (s : State) : (resetBlock s).errcode = .none := rfl
@[simp] theorem resetBlock_mode (s : State) : (resetBlock s).mode = .idle := rfl

/-! ## BUSY -/

theorem busy_iff (s : State) : s.busy = true ↔ ∃ p, s.pend = some p := Option.isSome_iff_exists

theorem not_busy_iff (s : State) : s.busy = false ↔ s.pend = none := by
  unfold State.busy
  cases s.pend <;> simp

theorem busy_of_pend {s : State} {p : Pending} (h : s.pend = some p) : s.busy = true :=
  (busy_iff s).2 ⟨p, h⟩

end Sys2Proof.Machine
end

