-- ==== Sys2Proof/Laws/Ops.lean ====
section
/-! SUPPORT. One lemma for each shared operation that says everything it can do; the meanings' lemmas cite these. -/

namespace Sys2Proof.Machine

/-! ## Errors -/

theorem raiseError_of_clear {c : ErrCode} {s : State} (h : s.err = false) :
    raiseError c s = { s with err := true, errcode := c } := by
  simp [raiseError, h]

theorem raiseError_of_err {c : ErrCode} {s : State} (h : s.err = true) : raiseError c s = s := by
  cases s
  simp_all [raiseError]

/-! ## The checks of a CMD write -/

/-- A failed check gives a code other than NONE (R115, R117). -/
theorem cmdCheck_error {v : Word} {s : State} {c : ErrCode} (h : cmdCheck v s = .error c) : c ≠ .none := by
  unfold cmdCheck at h
  repeat' split at h
  all_goals cases h; try decide

/-- What an accepted word is: a legal command while nothing is pending (R117). -/
theorem cmdCheck_ok {v : Word} {s : State} {p : Pending} (h : cmdCheck v s = .ok p) :
    s.busy = false ∧ commandOf v = some (p.op, p.nbytes) ∧ PendingLegal p s := by
  unfold cmdCheck at h
  split at h
  · cases h
  · rename_i hb
    split at h
    · cases h
    · rename_i op n hc
      repeat' split at h
      all_goals cases h
      rename_i h1 h2 h3 h4 h5 h6
      refine ⟨by simpa using hb, hc, ?_⟩
      have hn := (commandOf_eq_some hc).2.2.2.2
      cases op
      case hashInit => exact hn rfl
      case hashUpdate => exact ⟨by_contra fun hc => h4 ⟨rfl, hc⟩, fun hc => h1 ⟨rfl, hc⟩⟩
      case hashFinal => exact ⟨BitVec.not_lt.1 fun hc => h5 ⟨.inl rfl, hc⟩, by_contra fun hc => h2 ⟨rfl, hc⟩⟩
      case macStart => exact ⟨hn rfl, BitVec.not_lt.1 fun hc => h6 ⟨.inl rfl, hc⟩⟩
      case macFinal => exact ⟨BitVec.not_lt.1 fun hc => h5 ⟨.inr rfl, hc⟩, by_contra fun hc => h3 ⟨rfl, hc⟩⟩
      case tokenGen => exact ⟨hn rfl, BitVec.not_lt.1 fun hc => h6 ⟨.inr rfl, hc⟩⟩
      case clear => exact hn rfl

/-- The checks read BUSY, MODE and KEYLEN and nothing else of the state (R117). -/
theorem cmdCheck_congr {s t : State} (v : Word) (hp : s.busy = t.busy) (hm : s.mode = t.mode)
    (hk : s.keylen = t.keylen) : cmdCheck v s = cmdCheck v t := by
  simp only [cmdCheck, hp, hm, hk]

/-- The checks of each command, while nothing is pending (R117). -/
theorem cmdCheck_command {v : Word} {s : State} {op : Op} {n : BitVec 7} (hb : s.busy = false)
    (hc : commandOf v = some (op, n)) :
    cmdCheck v s = match op with
      | .hashInit => .ok ⟨.hashInit, n⟩
      | .hashUpdate =>
        if s.mode = .idle then .error .badSequence
        else if n ≠ 64 then .error .badNbytes
        else .ok ⟨.hashUpdate, n⟩
      | .hashFinal =>
        if s.mode ≠ .hash then .error .badSequence
        else if 64 < n then .error .badNbytes
        else .ok ⟨.hashFinal, n⟩
      | .macStart => if 64 < s.keylen then .error .badKeylen else .ok ⟨.macStart, n⟩
      | .macFinal =>
        if s.mode ≠ .mac then .error .badSequence
        else if 64 < n then .error .badNbytes
        else .ok ⟨.macFinal, n⟩
      | .tokenGen => if 64 < s.keylen then .error .badKeylen else .ok ⟨.tokenGen, n⟩
      | .clear => .ok ⟨.clear, n⟩ := by
  cases op <;> simp [cmdCheck, hb, hc]

/-- A legal command that passes its checks is accepted (R105). -/
theorem cmdCheck_of_legal {v : Word} {s : State} {p : Pending} (hb : s.busy = false)
    (hc : commandOf v = some (p.op, p.nbytes)) (hl : PendingLegal p s) : cmdCheck v s = .ok p := by
  obtain ⟨op, n⟩ := p
  rw [cmdCheck_command hb hc]
  cases op
  case hashInit => rfl
  case hashUpdate => simp_all [PendingLegal]
  case hashFinal => exact (if_neg (by simp [hl.2])).trans (if_neg (BitVec.not_lt.2 hl.1))
  case macStart => exact if_neg (BitVec.not_lt.2 hl.2)
  case macFinal => exact (if_neg (by simp [hl.2])).trans (if_neg (BitVec.not_lt.2 hl.1))
  case tokenGen => exact if_neg (BitVec.not_lt.2 hl.2)
  case clear => rfl

/-! ## Issuing a command -/

theorem issueCommand_of_legal {v : Word} {s : State} {p : Pending} (hb : s.busy = false)
    (hc : commandOf v = some (p.op, p.nbytes)) (hl : PendingLegal p s) : issueCommand v s = acceptCommand p s := by
  simp only [issueCommand, cmdCheck_of_legal hb hc hl]

/-- A write to CMD records an error or accepts a legal command (R105). -/
theorem issueCommand_cases (v : Word) (s : State) :
    (∃ c, c ≠ .none ∧ issueCommand v s = raiseError c s) ∨
    (∃ p, s.busy = false ∧ PendingLegal p s ∧ issueCommand v s = acceptCommand p s) := by
  unfold issueCommand
  split
  · rename_i c h
    exact .inl ⟨c, cmdCheck_error h, rfl⟩
  · rename_i p h
    obtain ⟨hb, -, hl⟩ := cmdCheck_ok h
    exact .inr ⟨p, hb, hl, rfl⟩

theorem issueCommand_of_busy {s : State} (v : Word) (h : s.busy = true) :
    issueCommand v s = raiseError .busyWrite s := by
  simp [issueCommand, cmdCheck, h]

/-- An illegal word, issued, is rejected (R114). -/
theorem issueCommand_of_illegal {v : Word} (s : State) (h : commandOf v = none) :
    issueCommand v s = rejectIllegal s := by
  cases hb : s.busy <;> simp [issueCommand, cmdCheck, rejectIllegal, h, hb]

/-! ## A command's two steps -/

theorem runCommand_host {s : State} (op : Op) (n : BitVec 7) (f : State → State) (h : s.agent = .host) :
    runCommand op n f s = .next (issueCommand (cmdWord op n) s) := by
  simp [runCommand, h]

theorem runCommand_engine {s : State} (op : Op) (n : BitVec 7) (f : State → State) (h : s.agent = .engine) :
    runCommand op n f s = .next (finishCommand (f s)) := by
  simp [runCommand, h]

/-- The completion effect of a command (R41's table). -/
def commandEffect : Op → BitVec 7 → State → State
  | .hashInit, _ => hashInitEffect
  | .hashUpdate, _ => hashUpdateEffect
  | .hashFinal, n => hashFinalEffect n
  | .macStart, _ => macStartEffect
  | .macFinal, n => macFinalEffect n
  | .tokenGen, _ => tokenGenEffect
  | .clear, _ => clearEffect

/-- A command of the Host's is the write of its word. -/
theorem exec_command_host {s : State} (op : Op) (n : BitVec 7) (hn : takesCount op = true ∨ n = 0)
    (h : s.agent = .host) : exec (commandInstr op n) s = .next (issueCommand (cmdWord op n) s) := by
  cases op <;> first
    | exact runCommand_host _ _ _ h
    | (have : n = 0 := by simpa [takesCount] using hn
       subst this
       exact runCommand_host _ _ _ h)

/-- A command of the Engine's is its effect and the end of the completion (R41). -/
theorem exec_command_engine {s : State} (op : Op) (n : BitVec 7) (h : s.agent = .engine) :
    exec (commandInstr op n) s = .next (finishCommand (commandEffect op n s)) := by
  cases op <;> exact runCommand_engine _ _ _ h

/-! ## Writes -/

theorem writeUnlessBusy_of_busy {s : State} (t : State) (h : s.busy = true) :
    writeUnlessBusy s t = raiseError .busyWrite s := by
  simp [writeUnlessBusy, h]

theorem writeUnlessBusy_of_idle {s : State} (t : State) (h : s.busy = false) : writeUnlessBusy s t = t := by
  simp [writeUnlessBusy, h]

theorem cfgCheck_error {v : Word} {s : State} {c : ErrCode} (h : cfgCheck v s = some c) : c ≠ .none := by
  unfold cfgCheck at h
  repeat' split at h
  all_goals cases h; try decide

/-- The checks of a CFG write with the widths written out (R19, R118). -/
theorem cfgCheck_eq (v : Word) (s : State) :
    cfgCheck v s = if s.busy then some .busyWrite
      else if s.lock then some .cfgLocked
      else if v.extractLsb' 0 4 = 0 ∨ 10 < v.extractLsb' 0 4 then some .badDigits
      else none := rfl

/-- A CFG write that passes its checks (R118). -/
theorem cfgCheck_none {v : Word} {s : State} (h : cfgCheck v s = none) :
    s.busy = false ∧ s.lock = false ∧ 1 ≤ v.extractLsb' 0 4 ∧ v.extractLsb' 0 4 ≤ 10 := by
  unfold cfgCheck at h
  split at h
  · cases h
  · split at h
    · cases h
    · split at h
      · cases h
      · rename_i hb hl hd
        push Not at hd
        refine ⟨by simpa using hb, by simpa using hl, ?_, BitVec.not_lt.1 fun hc => ?_⟩
        · generalize BitVec.extractLsb' 0 4 v = d at hd
          have := hd.1
          revert this
          clear hd
          revert d
          decide
        · exact absurd hc (by simpa [Config.digitsMax] using hd.2)

/-! ## Reads -/

/-- No read returns anything of KEY or KSAVE (R29, R36). -/
theorem readValue_key (off : BitVec 12) (s : State) (k : Vector Word 16) (ks : Vector Byte 64) :
    readValue off { s with key := k, ksave := ks } = readValue off s := rfl

/-! ## Everything the Host's instruction can do -/

/-- If an instruction of the Host's answers a next state, then one of these cases holds. -/
theorem exec_host_cases {i : Instr} {s t : State} (ha : s.agent = .host) (h : exec i s = .next t) :
    (∃ c, c ≠ .none ∧ t = raiseError c s) ∨
    (∃ p, s.busy = false ∧ PendingLegal p s ∧ t = acceptCommand p s) ∨
    (∃ v, t = { s with rdata := v }) ∨
    t = s ∨
    (s.busy = false ∧ s.lock = false ∧ ∃ d l, 1 ≤ d ∧ d ≤ 10 ∧ t = { s with digits := d, lock := l }) ∨
    (s.busy = false ∧ ∃ b, t = { s with irqEn := b }) ∨
    (s.busy = false ∧ ∃ n, t = { s with keylen := n }) ∨
    (s.busy = false ∧ ∃ c, t = { s with counter := c }) ∨
    (s.busy = false ∧ ∃ m, t = { s with msg := m }) ∨
    (s.busy = false ∧ ∃ k, t = { s with key := k }) := by
  have issue : ∀ v, t = issueCommand v s →
      (∃ c, c ≠ .none ∧ t = raiseError c s) ∨
      (∃ p, s.busy = false ∧ PendingLegal p s ∧ t = acceptCommand p s) := by
    rintro v rfl
    exact issueCommand_cases v s
  have cmd : ∀ op n f, runCommand op n f s = .next t →
      (∃ c, c ≠ .none ∧ t = raiseError c s) ∨
      (∃ p, s.busy = false ∧ PendingLegal p s ∧ t = acceptCommand p s) := by
    intro op n f h
    rw [runCommand_host _ _ _ ha] at h
    cases h
    exact issueCommand_cases _ s
  have wr : ∀ u, Host.Outcome.next (writeUnlessBusy s u) = (.next t : Result) →
      (∃ c, c ≠ ErrCode.none ∧ t = raiseError c s) ∨ (s.busy = false ∧ t = u) := by
    intro u h
    cases h
    cases hb : s.busy
    · exact .inr ⟨rfl, writeUnlessBusy_of_idle u hb⟩
    · exact .inl ⟨.busyWrite, by decide, writeUnlessBusy_of_busy u hb⟩
  have ill : Host.Outcome.next (rejectIllegal s) = (.next t : Result) →
      ∃ c, c ≠ ErrCode.none ∧ t = raiseError c s := by
    intro h
    cases h
    exact ⟨if s.busy then .busyWrite else .illegalCmd, by split <;> decide, rfl⟩
  cases i
  case hashInit => rcases cmd _ _ _ h with h | h <;> simp [h]
  case hashUpdate => rcases cmd _ _ _ h with h | h <;> simp [h]
  case hashFinal => rcases cmd _ _ _ h with h | h <;> simp [h]
  case macStart => rcases cmd _ _ _ h with h | h <;> simp [h]
  case macFinal => rcases cmd _ _ _ h with h | h <;> simp [h]
  case tokenGen => rcases cmd _ _ _ h with h | h <;> simp [h]
  case clear => rcases cmd _ _ _ h with h | h <;> simp [h]
  case illegalOp0 => exact .inl (ill h)
  case illegalOp8To15 => exact .inl (ill h)
  case illegalReserved => exact .inl (ill h)
  case rd off =>
    simp only [exec, execRd] at h
    split at h
    · cases h
    · cases h; exact .inr (.inr (.inl ⟨_, rfl⟩))
  case wrCmd v =>
    cases h
    rcases issue v rfl with h | h
    · exact .inl h
    · exact .inr (.inl h)
  case wrCfg v =>
    simp only [exec, execWrCfg] at h
    split at h
    · rename_i c hc
      cases h
      exact .inl ⟨c, cfgCheck_error hc, rfl⟩
    · rename_i hc
      cases h
      obtain ⟨hb, hl, h1, h2⟩ := cfgCheck_none hc
      exact .inr (.inr (.inr (.inr (.inl ⟨hb, hl, _, _, h1, h2, rfl⟩))))
  case wrIrqEn v =>
    rcases wr _ h with h | ⟨hb, h⟩
    · exact .inl h
    · exact .inr (.inr (.inr (.inr (.inr (.inl ⟨hb, _, h⟩)))))
  case wrKeylen v =>
    rcases wr _ h with h | ⟨hb, h⟩
    · exact .inl h
    · exact .inr (.inr (.inr (.inr (.inr (.inr (.inl ⟨hb, _, h⟩))))))
  case wrCounter v =>
    rcases wr _ h with h | ⟨hb, h⟩
    · exact .inl h
    · exact .inr (.inr (.inr (.inr (.inr (.inr (.inr (.inl ⟨hb, _, h⟩)))))))
  case wrMsg k v =>
    rcases wr _ h with h | ⟨hb, h⟩
    · exact .inl h
    · exact .inr (.inr (.inr (.inr (.inr (.inr (.inr (.inr (.inl ⟨hb, _, h⟩))))))))
  case wrKey k v =>
    rcases wr _ h with h | ⟨hb, h⟩
    · exact .inl h
    · exact .inr (.inr (.inr (.inr (.inr (.inr (.inr (.inr (.inr ⟨hb, _, h⟩))))))))
  case wrIgnored off v =>
    simp only [exec, execWrIgnored] at h
    split at h
    · cases h
    · cases h; exact .inr (.inr (.inr (.inl rfl)))

end Sys2Proof.Machine
end

