-- ==== Sys2Proof/Laws/PerInstr.lean ====
section
/-! SUPPORT. The families of statements made for each instruction, one lemma for each constructor. -/

namespace Sys2Proof.Laws.EncodesAligned

open Sys2Proof

/-- A well-formed instruction is written as a command word or as a 4-byte access at a multiple of 4: it is never an
access the block answers with a bus error (R44, R58). -/
def Statement (i : Instr) : Prop :=
  i.wf = true → ∀ b, encode i = .bus b → b.size = 4 ∧ b.off.toNat % 4 = 0

/-- Two zero bits at the bottom make a multiple of 4. -/
theorem aligned_toNat {off : BitVec 12} (h : aligned off = true) : off.toNat % 4 = 0 := by
  have := congrArg BitVec.toNat (eq_of_beq h)
  simpa [BitVec.extractLsb'_toNat] using this

/-- Every register of a window stands at a multiple of 4. -/
theorem windowOffset_aligned (i : BitVec 4) :
    (windowOffset offMsg i).toNat % 4 = 0 ∧ (windowOffset offKey i).toNat % 4 = 0 := by
  revert i
  decide

theorem hashInit : Statement .hashInit := by intro _ b h; cases h
theorem hashUpdate (n : BitVec 7) : Statement (.hashUpdate n) := by intro _ b h; cases h
theorem hashFinal (n : BitVec 7) : Statement (.hashFinal n) := by intro _ b h; cases h
theorem macStart : Statement .macStart := by intro _ b h; cases h
theorem macFinal (n : BitVec 7) : Statement (.macFinal n) := by intro _ b h; cases h
theorem tokenGen : Statement .tokenGen := by intro _ b h; cases h
theorem clear : Statement .clear := by intro _ b h; cases h
theorem illegalOp0 (w : Word) : Statement (.illegalOp0 w) := by intro _ b h; cases h
theorem illegalOp8To15 (w : Word) : Statement (.illegalOp8To15 w) := by intro _ b h; cases h
theorem illegalReserved (w : Word) : Statement (.illegalReserved w) := by intro _ b h; cases h
theorem rd (off : BitVec 12) : Statement (.rd off) := by intro w b h; cases h; exact ⟨rfl, aligned_toNat w⟩
theorem wrCmd (v : Word) : Statement (.wrCmd v) := by
  intro _ b h; cases h; exact ⟨rfl, show offCmd.toNat % 4 = 0 by decide⟩
theorem wrCfg (v : Word) : Statement (.wrCfg v) := by
  intro _ b h; cases h; exact ⟨rfl, show offCfg.toNat % 4 = 0 by decide⟩
theorem wrIrqEn (v : Word) : Statement (.wrIrqEn v) := by
  intro _ b h; cases h; exact ⟨rfl, show offIrqEn.toNat % 4 = 0 by decide⟩
theorem wrKeylen (v : Word) : Statement (.wrKeylen v) := by
  intro _ b h; cases h; exact ⟨rfl, show offKeylen.toNat % 4 = 0 by decide⟩
theorem wrCounter (v : Word) : Statement (.wrCounter v) := by
  intro _ b h; cases h; exact ⟨rfl, show offCounter.toNat % 4 = 0 by decide⟩
theorem wrMsg (i : BitVec 4) (v : Word) : Statement (.wrMsg i v) := by
  intro _ b h; cases h; exact ⟨rfl, (windowOffset_aligned i).1⟩
theorem wrKey (i : BitVec 4) (v : Word) : Statement (.wrKey i v) := by
  intro _ b h; cases h; exact ⟨rfl, (windowOffset_aligned i).2⟩
theorem wrIgnored (off : BitVec 12) (v : Word) : Statement (.wrIgnored off v) := by
  intro w b h; cases h; exact ⟨rfl, aligned_toNat (Bool.and_eq_true _ _ ▸ w).1⟩

end Sys2Proof.Laws.EncodesAligned
end

