-- ==== Sys2Proof/Laws/Step.lean ====
section
/-! SUPPORT. One step by the event it takes, everything a step can do, and runs of steps. -/

namespace Sys2Proof.Machine

/-! ## One step, by its event -/

theorem step_of_fetchAccess {s u : State} {a : Access} (hf : fetch s = fetchAccess a u) :
    step s = match decode a with
      | .ok i => exec i { u with agent := .host }
      | .error _ => .fault .busFault := by
  unfold step
  rw [hf, fetchAccess]
  cases decode a <;> rfl

theorem step_access {s : State} {a : Access} {rest : List Event} (h : s.inputs = .access a :: rest) :
    step s = match decode a with
      | .ok i => exec i { s with inputs := rest, agent := .host }
      | .error _ => .fault .busFault :=
  step_of_fetchAccess (u := { s with inputs := rest }) (by rw [fetch, h])

theorem step_platform {s : State} {p : PlatformAccess} {rest : List Event} (h : s.inputs = .platform p :: rest) :
    step s = match windowAccess p with
      | some a => (match decode a with
        | .ok i => exec i { s with inputs := rest, agent := .host }
        | .error _ => .fault .busFault)
      | none => .next { s with inputs := rest } := by
  cases hw : windowAccess p with
  | some a => exact step_of_fetchAccess (u := { s with inputs := rest }) (by rw [fetch, h]; simp only [hw])
  | none => unfold step; rw [fetch, h]; simp only [hw]

theorem step_reset {s : State} {rest : List Event} (h : s.inputs = .reset :: rest) :
    step s = .next (resetBlock { s with inputs := rest }) := by
  unfold step; rw [fetch, h]

/-- The Engine's step, where a command is pending (R41). -/
theorem step_engine_pending {s : State} {p : Pending} {rest : List Event}
    (h : s.inputs = .engine :: rest ∨ (s.inputs = [] ∧ rest = [])) (hp : s.pend = some p) :
    step s = .next (finishCommand (commandEffect p.op p.nbytes { s with inputs := rest, agent := .engine })) := by
  have key : fetch s = .run (commandInstr p.op p.nbytes) { s with inputs := rest, agent := .engine } := by
    rcases h with h | ⟨h, rfl⟩
    · rw [fetch, h]; simp only [fetchEngine, hp]
    · rw [fetch, h]; simp only [fetchEngine, hp]; rw [← h]
  unfold step
  rw [key]
  exact exec_command_engine _ _ rfl

/-- The Engine's step, where none is. -/
theorem step_engine_idle {s : State} {rest : List Event}
    (h : s.inputs = .engine :: rest ∨ (s.inputs = [] ∧ rest = [])) (hp : s.pend = none) :
    step s = .next { s with inputs := rest } := by
  rcases h with h | ⟨h, rfl⟩
  · unfold step; rw [fetch, h]; simp only [fetchEngine, hp]
  · unfold step; rw [fetch, h]; simp only [fetchEngine, hp]
    cases s
    simp_all

/-! ## Everything a step can do -/

/-- If a step answers a next state, it is a Host's instruction, a completion, a reset, or nothing but the event taken. -/
theorem step_cases {s t : State} (h : step s = .next t) :
    (∃ rest i, exec i { s with inputs := rest, agent := .host } = .next t ∧
      ((∃ a, s.inputs = .access a :: rest) ∨ (∃ p, s.inputs = .platform p :: rest))) ∨
    (∃ rest p, s.pend = some p ∧
      t = finishCommand (commandEffect p.op p.nbytes { s with inputs := rest, agent := .engine })) ∨
    (∃ rest, s.inputs = .reset :: rest ∧ t = resetBlock { s with inputs := rest }) ∨
    (∃ rest, t = { s with inputs := rest }) := by
  have engine : ∀ rest, (s.inputs = .engine :: rest ∨ (s.inputs = [] ∧ rest = [])) →
      (∃ rest p, s.pend = some p ∧
        t = finishCommand (commandEffect p.op p.nbytes { s with inputs := rest, agent := .engine })) ∨
      (∃ rest, t = { s with inputs := rest }) := by
    intro rest hi
    obtain hp | ⟨p, hp⟩ : s.pend = none ∨ ∃ p, s.pend = some p := by cases s.pend <;> simp
    · rw [step_engine_idle hi hp] at h
      cases h
      exact .inr ⟨rest, rfl⟩
    · rw [step_engine_pending hi hp] at h
      cases h
      exact .inl ⟨rest, p, hp, rfl⟩
  cases hi : s.inputs with
  | nil =>
    rcases engine [] (.inr ⟨hi, rfl⟩) with h | h
    · exact .inr (.inl h)
    · exact .inr (.inr (.inr h))
  | cons e rest =>
    cases e with
    | access a =>
      rw [step_access hi] at h
      split at h
      · exact .inl ⟨rest, _, h, .inl ⟨a, rfl⟩⟩
      · cases h
    | platform p =>
      rw [step_platform hi] at h
      split at h
      · split at h
        · exact .inl ⟨rest, _, h, .inr ⟨p, rfl⟩⟩
        · cases h
      · cases h
        exact .inr (.inr (.inr ⟨rest, rfl⟩))
    | engine =>
      rcases engine rest (.inl hi) with h | h
      · exact .inr (.inl h)
      · exact .inr (.inr (.inr h))
    | reset =>
      rw [step_reset hi] at h
      cases h
      exact .inr (.inr (.inl ⟨rest, rfl, rfl⟩))

/-! ## Runs -/

theorem runSteps_succ_of_next {k : Nat} {s t : State} (h : step s = .next t) :
    runSteps (k + 1) s = runSteps k t := by
  simp only [runSteps, h]

theorem runSteps_succ_of_fault {k : Nat} {s : State} {f : Fault} (h : step s = .fault f) :
    runSteps (k + 1) s = .fault f := by
  simp only [runSteps, h]

/-- A run of `a + b` steps is a run of `a` and then one of `b`. -/
theorem runSteps_add_of_next {a b : Nat} {s t : State} (h : runSteps a s = .next t) :
    runSteps (a + b) s = runSteps b t := by
  induction a generalizing s with
  | zero =>
    cases h
    rw [Nat.zero_add]
  | succ a ih =>
    rw [show a + 1 + b = (a + b) + 1 by omega]
    simp only [runSteps] at h ⊢
    cases hs : step s with
    | next u => rw [hs] at h; exact ih h
    | fault f => rw [hs] at h; cases h
    | refused r => rw [hs] at h; cases h

/-- The run of the machine behind the host's interface is this run. -/
theorem core_run_eq_runSteps (k : Nat) (s : State) : Host.Core.run core k s = runSteps k s := by
  induction k generalizing s with
  | zero => rfl
  | succ k ih =>
    have h : Host.Core.run core (k + 1) s = (match step s with
      | .next t => Host.Core.run core k t
      | .fault f => .fault f
      | .refused r => .refused r) := by
      cases hs : step s <;> simp only [Host.Core.run, core, hs]
    rw [h]
    simp only [runSteps]
    cases step s with
    | next t => exact ih t
    | fault f => rfl
    | refused r => rfl

end Sys2Proof.Machine
end

