-- ==== Sys2Proof/Laws/Runs.lean ====
section
/-! SUPPORT. What the pseudo-instructions of R66 do: each lemma says where a run over one of their event lists ends. -/

namespace Sys2Proof.Machine

/-- Taking the events `l`, and no other, leads from `s` to `t` (whatever comes after them). -/
def RunsTo (l : List Event) (s t : State) : Prop :=
  ∀ rest, runSteps l.length { s with inputs := l ++ rest } = .next { t with inputs := rest }

theorem RunsTo.nil (s : State) : RunsTo [] s s := fun _ => rfl

/-- Runs compose. -/
theorem RunsTo.append {l m : List Event} {s t u : State} (h : RunsTo l s t) (k : RunsTo m t u) :
    RunsTo (l ++ m) s u := by
  intro rest
  rw [List.length_append, List.append_assoc, runSteps_add_of_next (h (m ++ rest))]
  exact k rest

theorem RunsTo.cast {l m : List Event} {s t : State} (h : RunsTo l s t) (e : l = m) : RunsTo m s t := e ▸ h

/-- A run from the state whose whole list of events it takes. -/
theorem RunsTo.run {l : List Event} {s t : State} (h : RunsTo l s t) (hi : s.inputs = l) :
    runSteps l.length s = .next { t with inputs := [] } := by
  have := h []
  rw [List.append_nil] at this
  rwa [← hi] at this ⊢

/-- One access. -/
theorem RunsTo.access {a : Access} {i : Instr} {s t : State} (hd : decode a = .ok i)
    (he : ∀ rest, exec i { s with inputs := rest, agent := .host } = .next { t with inputs := rest }) :
    RunsTo [.access a] s t := by
  intro rest
  have hs : step { s with inputs := .access a :: rest } = .next { t with inputs := rest } := by
    rw [step_access (s := { s with inputs := .access a :: rest }) rfl, hd]
    exact he rest
  exact (runSteps_succ_of_next hs).trans rfl

/-- The completion of the pending command. -/
theorem RunsTo.engine {s : State} {p : Pending} (hp : s.pend = some p) :
    RunsTo [.engine] s (finishCommand (commandEffect p.op p.nbytes { s with agent := .engine })) := by
  intro rest
  have hs := step_engine_pending (s := { s with inputs := .engine :: rest }) (.inl rfl) hp
  refine (runSteps_succ_of_next hs).trans (congrArg Host.Outcome.next ?_)
  obtain ⟨op, n⟩ := p
  cases op <;> rfl

/-! ## Reads and writes -/

/-- A read of STATUS. -/
theorem RunsTo.readStatus (s : State) :
    RunsTo [line (.rd .status)] s { s with agent := .host, rdata := statusWord s } :=
  RunsTo.access (i := .rd offStatus) rfl fun _ => rfl

/-- Any number of reads of STATUS change nothing but the value returned. -/
theorem RunsTo.polls (k : Nat) (s : State) :
    ∃ a v, RunsTo (List.replicate k (line (.rd .status))) s { s with agent := a, rdata := v } := by
  induction k generalizing s with
  | zero => exact ⟨s.agent, s.rdata, RunsTo.nil s⟩
  | succ k ih =>
    obtain ⟨a, v, h⟩ := ih { s with agent := .host, rdata := statusWord s }
    exact ⟨a, v, (RunsTo.readStatus s).append h⟩

/-- `wait` completes the pending command (R66). -/
theorem RunsTo.wait (polls : Nat) {s : State} {p : Pending} (hp : s.pend = some p) :
    ∃ v, RunsTo (waitEvents polls) s
      { finishCommand (commandEffect p.op p.nbytes s) with agent := .host, rdata := v } := by
  obtain ⟨a, v, h⟩ := RunsTo.polls polls s
  have he := RunsTo.engine (s := { s with agent := a, rdata := v }) hp
  have hr := RunsTo.readStatus (finishCommand (commandEffect p.op p.nbytes { s with agent := .engine, rdata := v }))
  obtain ⟨op, n⟩ := p
  cases op <;> exact ⟨_, h.append (he.append hr)⟩

/-- A command word that passes its checks, and `wait`: acceptance, then completion (R105, R41). -/
theorem RunsTo.command (polls : Nat) {s : State} {p : Pending} {v : Word} (hb : s.busy = false)
    (hc : commandOf v = some (p.op, p.nbytes)) (hl : PendingLegal p s) :
    ∃ r, RunsTo (.access (busWrite offCmd v) :: waitEvents polls) s
      { finishCommand (commandEffect p.op p.nbytes (acceptCommand p s)) with agent := .host, rdata := r } := by
  have h1 : RunsTo [.access (busWrite offCmd v)] s { acceptCommand p s with agent := .host } :=
    RunsTo.access (i := .wrCmd v) (decode_write_offCmd v) fun rest =>
      congrArg Host.Outcome.next (issueCommand_of_legal (s := { s with inputs := rest, agent := .host }) hb hc hl)
  obtain ⟨r, h2⟩ := RunsTo.wait polls (s := { acceptCommand p s with agent := .host }) (p := p) rfl
  refine ⟨r, ?_⟩
  have key := h1.append h2
  obtain ⟨op, n⟩ := p
  cases op <;> exact key

/-! ## Loading a window -/

/-- The words of a byte sequence, written to a window in order. -/
def writeWords (w : Vector Word 16) (b : List Byte) (c : Nat) : Vector Word 16 :=
  (List.range c).foldl (fun w i => setWord w (BitVec.ofNat 4 i) (paddedWordAt b i)) w

theorem writeWords_succ (w : Vector Word 16) (b : List Byte) (c : Nat) :
    writeWords w b (c + 1) = setWord (writeWords w b c) (BitVec.ofNat 4 c) (paddedWordAt b c) := by
  simp [writeWords, List.range_succ]

/-- Byte j of word i of a padded sequence is the sequence's own byte there. -/
theorem wordBytes_paddedWordAt {b : List Byte} {i j : Nat} (hj : j < 4) (h : 4 * i + j < b.length) :
    (wordBytes (paddedWordAt b i))[j]? = b[4 * i + j]? := by
  have hl : (slice (b ++ List.replicate 3 0) (4 * i) 4).length = 4 := by
    rw [slice_length, List.length_append, List.length_replicate]; omega
  rw [paddedWordAt, wordAt, wordBytes_wordOfBytes hl, slice, List.getElem?_take_of_lt hj, List.getElem?_drop,
    List.getElem?_append_left h]

theorem getElem?_wordBytes (w : Word) {j : Nat} (hj : j < 4) :
    (wordBytes w)[j]? = some (w.extractLsb' (24 - 8 * j) 8) := by
  interval_cases j <;> rfl

/-- The window holds the sequence, from its first byte on. -/
theorem windowBytes_writeWords (w : Vector Word 16) {b : List Byte} (hb : b.length ≤ 64) :
    (windowBytes (writeWords w b ((b.length + 3) / 4))).take b.length = b := by
  have key : ∀ c, c ≤ 16 → ∀ k, k < 4 * c → k < b.length → (windowBytes (writeWords w b c))[k]? = b[k]? := by
    intro c
    induction c with
    | zero => intro _ k hk; omega
    | succ c ih =>
      intro hc k hk hkb
      rw [writeWords_succ, getElem?_windowBytes_setWord _ _ _ (by omega), BitVec.toNat_ofNat,
        Nat.mod_eq_of_lt (by omega)]
      split
      · rename_i h
        rw [← getElem?_wordBytes _ (Nat.mod_lt k (by decide)), wordBytes_paddedWordAt (Nat.mod_lt k (by decide))
          (by omega), show 4 * c + k % 4 = k by omega]
      · exact ih (by omega) k (by omega) hkb
  apply List.ext_getElem?
  intro k
  by_cases hk : k < b.length
  · rw [List.getElem?_take_of_lt hk, key _ (by omega) k (by omega) hk]
  · rw [List.getElem?_eq_none (by simp; omega), List.getElem?_eq_none (by omega)]

/-- The writes of the first c words of MSG, while nothing is pending. -/
theorem RunsTo.msgWords (b : List Byte) {s : State} (hb : s.busy = false) (c : Nat) :
    ∃ a, RunsTo ((List.range c).map fun i => line (.wr (.msg (BitVec.ofNat 4 i)) (paddedWordAt b i))) s
      { s with msg := writeWords s.msg b c, agent := a } := by
  induction c with
  | zero => exact ⟨s.agent, RunsTo.nil s⟩
  | succ c ih =>
    obtain ⟨a, h⟩ := ih
    refine ⟨.host, ?_⟩
    rw [List.range_succ, List.map_append, writeWords_succ]
    exact h.append (RunsTo.access (decode_write_offMsg _ _) fun rest =>
      congrArg Host.Outcome.next (writeUnlessBusy_of_idle _ hb))

/-- `ld.msg b` puts the bytes of b at the start of MSG (R66). -/
theorem RunsTo.ldMsg {b : List Byte} (hl : b.length ≤ 64) {s : State} (hb : s.busy = false) :
    ∃ m a, RunsTo (ldMsg b) s { s with msg := m, agent := a } ∧ (windowBytes m).take b.length = b := by
  obtain ⟨a, h⟩ := RunsTo.msgWords b hb ((b.length + 3) / 4)
  exact ⟨_, a, h, windowBytes_writeWords _ hl⟩

/-- The writes of the first c words of KEY, while nothing is pending. -/
theorem RunsTo.keyWords (b : List Byte) {s : State} (hb : s.busy = false) (c : Nat) :
    ∃ a, RunsTo ((List.range c).map fun i => line (.wr (.key (BitVec.ofNat 4 i)) (paddedWordAt b i))) s
      { s with key := writeWords s.key b c, agent := a } := by
  induction c with
  | zero => exact ⟨s.agent, RunsTo.nil s⟩
  | succ c ih =>
    obtain ⟨a, h⟩ := ih
    refine ⟨.host, ?_⟩
    rw [List.range_succ, List.map_append, writeWords_succ]
    exact h.append (RunsTo.access (decode_write_offKey _ _) fun rest =>
      congrArg Host.Outcome.next (writeUnlessBusy_of_idle _ hb))

/-- `ld.key k` puts the bytes of k at the start of KEY and their number into KEYLEN (R66). -/
theorem RunsTo.ldKey {k : List Byte} (hl : k.length ≤ 64) {s : State} (hb : s.busy = false) :
    ∃ w, RunsTo (ldKey k) s { s with key := w, keylen := BitVec.ofNat 7 k.length, agent := .host } ∧
      (windowBytes w).take k.length = k := by
  have e : (BitVec.ofNat 32 k.length).extractLsb' 0 7 = BitVec.ofNat 7 k.length := by
    apply BitVec.eq_of_toNat_eq
    simp only [BitVec.extractLsb'_toNat, BitVec.toNat_ofNat, Nat.shiftRight_zero]
    omega
  rw [← e]
  obtain ⟨a, h⟩ := RunsTo.keyWords k hb ((k.length + 3) / 4)
  exact ⟨writeWords s.key k ((k.length + 3) / 4),
    h.append (RunsTo.access (decode_write_offKeylen _) fun rest =>
      congrArg Host.Outcome.next (writeUnlessBusy_of_idle _ hb)),
    windowBytes_writeWords _ hl⟩

end Sys2Proof.Machine
end

