-- ==== Sys2Proof/Tests/Slice0.lean ====
section
/-! SUPPORT. Tests: ill-formed terms that the check refuses, words written out from the encoding tables, one step of each
instruction with the value of 95_test_vectors.md, and for each statement with hypotheses a state that meets them. -/

namespace Sys2Proof.Tests

open Sys2Proof Sys2Proof.Machine

/-! ## Helpers -/

/-- The state after the Host's one access. -/
def after (s : State) (a : Access) : Option State := nextState (step { s with inputs := [.access a] })

/-- The state after the completion of what is pending. -/
def completed (s : State) : Option State := nextState (step { s with inputs := [.engine] })

/-- STATUS after the Host's one access. -/
def statusAfter (s : State) (a : Access) : Option Nat := (after s a).map fun t => (statusWord t).toNat

/-- What a read of `off` returns. -/
def readAt (s : State) (off : BitVec 12) : Option Nat := (after s (busRead off)).map fun t => t.rdata.toNat

/-- "after hash.init completed" (V7). -/
def hashOpen : State := { State.reset with mode := .hash, h := iv, done := true }

/-- "after mac.start completed" with KEYLEN = 0 (V7). -/
def macOpen : State := { State.reset with mode := .mac, h := compress iv (ipad []), done := true }

/-- A command accepted and not completed. -/
def pending (op : Op) (n : BitVec 7) (s : State) : State := acceptCommand ⟨op, n⟩ s

/-- A window whose words are `l`, and 0 after them. -/
def words (l : List Word) : Vector Word 16 := Vector.ofFn fun i => l.getD i.val 0

/-- The key of V6, "12345678901234567890". -/
def tokenKey : Vector Word 16 := words [0x31323334, 0x35363738, 0x39303132, 0x33343536, 0x37383930]

/-- A state with an error recorded. -/
def errored : State := { State.reset with err := true, errcode := .badSequence }

/-! ## WellFormed refuses (R58, R63, R112) -/

theorem test_wf_illegalOp0_needs_op_0 : (Instr.illegalOp0 0x00000001).wf = false := by decide
theorem test_wf_illegalOp8To15_needs_op_8 : (Instr.illegalOp8To15 0x00000007).wf = false := by decide
theorem test_wf_illegalReserved_needs_a_bad_field : (Instr.illegalReserved 0x00004002).wf = false := by decide
theorem test_wf_illegalReserved_needs_op_1_to_7 : (Instr.illegalReserved 0x00000018).wf = false := by decide
theorem test_wf_rd_aligned : (Instr.rd 0x002).wf = false := by decide
theorem test_wf_wrIgnored_aligned : (Instr.wrIgnored 0x0C1 0).wf = false := by decide
theorem test_wf_wrIgnored_not_writable : (Instr.wrIgnored 0x040 0).wf = false := by decide

/-! ## Words written out: RSV1, NBYTES, RSV0, OP (R57, R61) and offsets (R15, R62) -/

theorem test_decode_hashInit :
    decodeCmd (0b00000000000000000#17 ++ 0b0000000#7 ++ 0b0000#4 ++ 0b0001#4) = .hashInit := by decide
theorem test_decode_hashUpdate :
    decodeCmd (0b00000000000000000#17 ++ 0b1000000#7 ++ 0b0000#4 ++ 0b0010#4) = .hashUpdate 64 := by decide
theorem test_decode_hashFinal :
    decodeCmd (0b00000000000000000#17 ++ 0b0000011#7 ++ 0b0000#4 ++ 0b0011#4) = .hashFinal 3 := by decide
theorem test_decode_macStart :
    decodeCmd (0b00000000000000000#17 ++ 0b0000000#7 ++ 0b0000#4 ++ 0b0100#4) = .macStart := by decide
theorem test_decode_macFinal :
    decodeCmd (0b00000000000000000#17 ++ 0b0001000#7 ++ 0b0000#4 ++ 0b0101#4) = .macFinal 8 := by decide
theorem test_decode_tokenGen :
    decodeCmd (0b00000000000000000#17 ++ 0b0000000#7 ++ 0b0000#4 ++ 0b0110#4) = .tokenGen := by decide
theorem test_decode_clear :
    decodeCmd (0b00000000000000000#17 ++ 0b0000000#7 ++ 0b0000#4 ++ 0b0111#4) = .clear := by decide
theorem test_decode_illegalOp0 :
    decodeCmd (0b00000000000000000#17 ++ 0b1000000#7 ++ 0b0000#4 ++ 0b0000#4) = .illegalOp0 0x00004000 := by decide
theorem test_decode_illegalOp8To15 :
    decodeCmd (0b00000000000000000#17 ++ 0b0000000#7 ++ 0b0000#4 ++ 0b1000#4) = .illegalOp8To15 0x00000008 := by decide
theorem test_decode_illegalReserved_rsv0 :
    decodeCmd (0b00000000000000000#17 ++ 0b0000000#7 ++ 0b0001#4 ++ 0b0001#4) = .illegalReserved 0x00000011 := by decide
theorem test_decode_illegalReserved_rsv1 :
    decodeCmd (0b00000000000000001#17 ++ 0b0000000#7 ++ 0b0000#4 ++ 0b0001#4) = .illegalReserved 0x00008001 := by decide
theorem test_decode_illegalReserved_count :
    decodeCmd (0b00000000000000000#17 ++ 0b0000001#7 ++ 0b0000#4 ++ 0b0001#4) = .illegalReserved 0x00000101 := by decide
theorem test_decode_rd : decodeBus ⟨.read, 4, 0b000000001100, 0⟩ = .ok (.rd 0x00C) := by decide
theorem test_decode_wrCmd : decodeBus ⟨.write, 4, 0b000000000100, 7⟩ = .ok (.wrCmd 7) := by decide
theorem test_decode_wrCfg : decodeBus ⟨.write, 4, 0b000000001100, 7⟩ = .ok (.wrCfg 7) := by decide
theorem test_decode_wrIrqEn : decodeBus ⟨.write, 4, 0b000000010000, 7⟩ = .ok (.wrIrqEn 7) := by decide
theorem test_decode_wrKeylen : decodeBus ⟨.write, 4, 0b000000010100, 7⟩ = .ok (.wrKeylen 7) := by decide
theorem test_decode_wrCounter : decodeBus ⟨.write, 4, 0b000000011000, 7⟩ = .ok (.wrCounter 7) := by decide
theorem test_decode_wrMsg : decodeBus ⟨.write, 4, 0b000001111100, 7⟩ = .ok (.wrMsg 15 7) := by decide
theorem test_decode_wrKey : decodeBus ⟨.write, 4, 0b000010001100, 7⟩ = .ok (.wrKey 3 7) := by decide
theorem test_decode_wrIgnored : decodeBus ⟨.write, 4, 0b000000011100, 7⟩ = .ok (.wrIgnored 0x01C 7) := by decide
theorem test_decode_size_2 : decodeBus ⟨.write, 2, 0x004, 7⟩ = .error .badSize := by decide
theorem test_decode_misaligned : decodeBus ⟨.read, 4, 0x006, 0⟩ = .error .misaligned := by decide

/-- The words of the opcode table's rows, as it numbers them. -/
theorem test_table_words :
    decodeTableWord 32 0x00000001 = some .hashInit ∧ decodeTableWord 32 0x00004002 = some (.hashUpdate 64) ∧
    decodeTableWord 32 0x00000003 = some (.hashFinal 0) ∧ decodeTableWord 32 0x00000004 = some .macStart ∧
    decodeTableWord 32 0x00000005 = some (.macFinal 0) ∧ decodeTableWord 32 0x00000006 = some .tokenGen ∧
    decodeTableWord 32 0x00000007 = some .clear ∧ decodeTableWord 8 0x00 = some (.illegalOp0 0) ∧
    decodeTableWord 8 0x08 = some (.illegalOp8To15 8) ∧ decodeTableWord 16 0x0004 = some (.wrCmd 0) ∧
    decodeTableWord 16 0x000C = some (.wrCfg 0) ∧ decodeTableWord 16 0x0010 = some (.wrIrqEn 0) ∧
    decodeTableWord 16 0x0014 = some (.wrKeylen 0) ∧ decodeTableWord 16 0x0018 = some (.wrCounter 0) ∧
    decodeTableWord 16 0x0040 = some (.wrMsg 0 0) ∧ decodeTableWord 16 0x0080 = some (.wrKey 0 0) ∧
    decodeTableWord 16 0x8008 = some (.rd 0x008) ∧ decodeTableWord 48 0x5000C = some (.wrCfg 5) ∧
    decodeTableWord 16 0x00C0 = some (.wrIgnored 0x0C0 0) ∧ decodeTableWord 16 0x8002 = none := by decide

/-- The very next step runs the word placed where the step finds its instruction. -/
theorem test_withFetchWord :
    (nextState (step (State.reset.withFetchWord 32 0x00004002))).map (fun t => (statusWord t).toNat) = some 0x00000204 := by
  decide

/-! ## One step of each instruction (95_test_vectors.md) -/

-- P1
theorem test_hashInit_accepted : statusAfter State.reset (.cmd 0x00000001) = some 0x00000001 := by decide
theorem test_hashInit_completes :
    (completed (pending .hashInit 0 State.reset)).map (fun t => ((statusWord t).toNat, t.h)) =
      some (0x00000012, ⟨0x67452301, 0xEFCDAB89, 0x98BADCFE, 0x10325476, 0xC3D2E1F0⟩) := by decide

-- V7
theorem test_hashUpdate_checks : statusAfter hashOpen (.cmd 0x00003F02) = some 0x00000316 := by decide
-- V2 "An all-zero block"
theorem test_hashUpdate_completes :
    (completed (pending .hashUpdate 64 hashOpen)).map (fun t => (t.h, t.tlen)) =
      some (⟨0x92B404E5, 0x56588CED, 0x6C1ACD4E, 0xBF053F68, 0x09F73A93⟩, 64) := by decide +kernel

-- V7
theorem test_hashFinal_checks : statusAfter hashOpen (.cmd 0x00004103) = some 0x00000316 := by decide
-- P1
theorem test_hashFinal_completes :
    (completed (pending .hashFinal 3 { hashOpen with msg := words [0x61626300] })).map
      (fun t => ((statusWord t).toNat, t.h, t.tlen)) =
      some (0x00000042, ⟨0xA9993E36, 0x4706816A, 0xBA3E2571, 0x7850C26C, 0x9CD0D89D⟩, 3) := by decide +kernel

-- V7
theorem test_macStart_checks : statusAfter { State.reset with keylen := 65 } (.cmd 0x00000004) = some 0x00000404 := by
  decide
-- P3; KSAVE by R90
theorem test_macStart_completes :
    (completed (pending .macStart 0 { State.reset with key := words [0x0B0C0000, 0x0000000D], keylen := 2 })).map
      (fun t => ((statusWord t).toNat, t.ksave.toList)) =
      some (0x00000022, [0x0B, 0x0C] ++ List.replicate 62 0) := by decide

-- V7
theorem test_macFinal_checks : statusAfter macOpen (.cmd 0x00007F05) = some 0x00000326 := by decide
-- V5: HMAC("", "") = fbdb1d1b18aa6c08324b7d64b71fb76370690e1d
theorem test_macFinal_completes :
    (completed (pending .macFinal 0 macOpen)).map (fun t => ((statusWord t).toNat, t.h)) =
      some (0x00000042, ⟨0xFBDB1D1B, 0x18AA6C08, 0x324B7D64, 0xB71FB763, 0x70690E1D⟩) := by decide +kernel

-- V7
theorem test_tokenGen_checks : statusAfter { State.reset with keylen := 65 } (.cmd 0x00000006) = some 0x00000404 := by
  decide
-- V1.3, V6
theorem test_tokenGen_completes :
    (completed (pending .tokenGen 0 { State.reset with key := tokenKey, keylen := 20 })).map
      (fun t => ((statusWord t).toNat, t.truncv, t.tokenv, t.tstr.toList)) =
      some (0x000000C2, 0x4C93CF18, 755224, [0x37, 0x35, 0x35, 0x32, 0x32, 0x34, 0, 0, 0, 0, 0, 0]) := by decide +kernel

-- R113
theorem test_clear_accepted : statusAfter errored (.cmd 0x00000007) = some 0x00000205 := by decide
theorem test_clear_completes :
    (completed (pending .clear 0 { errored with key := tokenKey, digits := 8, lock := true })).map
      (fun t => ((statusWord t).toNat, keyBytes t, (cfgWord t).toNat)) =
      some (0x00000002, List.replicate 64 0, 0x80000008) := by decide

-- V7
theorem test_illegalOp0 : statusAfter State.reset (.cmd 0x00000000) = some 0x00000104 := by decide
theorem test_illegalOp0_busy : statusAfter (pending .hashInit 0 State.reset) (.cmd 0x00000000) = some 0x00000505 := by
  decide
-- R114
theorem test_illegalOp8To15 : statusAfter State.reset (.cmd 0x0000000F) = some 0x00000104 := by decide
-- V7
theorem test_illegalReserved : statusAfter State.reset (.cmd 0x00008001) = some 0x00000104 := by decide

-- V7 "Reset reads"
theorem test_rd_reset :
    readAt State.reset 0x000 = some 0x53484131 ∧ readAt State.reset 0x00C = some 6 ∧
      readAt State.reset 0x008 = some 0 := by decide
-- P1
theorem test_rd_results :
    let s := { State.reset with
      dvalid := true, h := ⟨0xA9993E36, 0x4706816A, 0xBA3E2571, 0x7850C26C, 0x9CD0D89D⟩ }
    readAt s 0x0D0 = some 0x9CD0D89D ∧ readAt s 0x100 = some 0x61393939 ∧ readAt s 0x124 = some 0x64383964 := by
  decide

-- V7
theorem test_wrCmd_busy :
    statusAfter (pending .hashInit 0 State.reset) (busWrite 0x004 0x00000007) = some 0x00000505 := by decide
theorem test_wrCmd_sequence_first : statusAfter State.reset (busWrite 0x004 0x00000002) = some 0x00000204 := by
  decide
theorem test_wrCfg_masks : (after State.reset (busWrite 0x00C 0x7FFFFFF5)).bind (readAt · 0x00C) = some 0x00000005 := by
  decide
theorem test_wrCfg_locked : statusAfter { State.reset with lock := true } (busWrite 0x00C 0) = some 0x00000704 := by
  decide
theorem test_wrIrqEn_masks : (after State.reset (busWrite 0x010 0xFFFFFFFF)).bind (readAt · 0x010) = some 1 := by
  decide
theorem test_wrKeylen_masks : (after State.reset (busWrite 0x014 0x00000080)).bind (readAt · 0x014) = some 0 := by
  decide
-- R109
theorem test_wrCounter : (after State.reset (busWrite 0x018 0xFFFFFFFF)).map (·.counter) = some 0xFFFFFFFF := by
  decide
-- R110, R49
theorem test_wrMsg :
    (after State.reset (busWrite 0x044 0x11223344)).map (fun t => (msgBytes t).take 9) =
      some [0, 0, 0, 0, 0x11, 0x22, 0x33, 0x44, 0] := by decide
-- V7
theorem test_wrMsg_busy : statusAfter (pending .hashInit 0 State.reset) (busWrite 0x040 1) = some 0x00000505 := by
  decide
-- R111, R29
theorem test_wrKey :
    (after State.reset (busWrite 0x0BC 0x11223344)).map (fun t => ((keyBytes t).drop 59, (readValue 0x0BC t).toNat)) =
      some ([0, 0x11, 0x22, 0x33, 0x44], 0) := by decide
-- V7
theorem test_wrIgnored_busy : statusAfter (pending .hashInit 0 State.reset) (busWrite 0x0C0 1) = some 0x00000001 := by
  decide
-- V7
theorem test_wrIgnored_status : statusAfter State.reset (busWrite 0x008 0xFFFFFFFF) = some 0 := by decide

/-! ## The algorithm (V2, V3) -/

theorem test_schedule_abc :
    let w := schedule (pad [0x61, 0x62, 0x63] 24)
    w.getD 0 0 = 0x61626380 ∧ w.getD 15 0 = 0x18 ∧ w.getD 16 0 = 0xC2C4C700 ∧ w.getD 19 0 = 0x85898E01 ∧
      w.getD 79 0 = 0x822E0879 := by decide +kernel

theorem test_round_0 :
    roundStep 0 0x61626380 (startVars iv) = ⟨0x0116FC33, 0x67452301, 0x7BF36AE2, 0x98BADCFE, 0x10325476⟩ := by
  decide

theorem test_pad_56 :
    (pad (List.replicate 56 0x61) 448).drop 56 = [0x80] ++ List.replicate 7 0 ++ List.replicate 56 0 ++
      [0, 0, 0, 0, 0, 0, 0x01, 0xC0] := by decide

theorem test_sha1_64 :
    sha1 (List.replicate 64 0x61) = beBytes 20 0x0098ba824b5c16427bd7a1122a5a442a25ec644d := by decide +kernel

/-! ## Witnesses: for each statement with hypotheses, operands and a state that meet them together -/

/-- A state with the Host's access `a` next. -/
def host (s : State) (a : Access) : State := { s with inputs := [.access a] }

/-- A state in which the Engine takes the step. -/
def engine (s : State) : State := { s with agent := .engine }

/-- `hash.init` accepted, not completed (V7). -/
def busyState : State := pending .hashInit 0 State.reset

theorem witness_inv : Inv hashOpen where
  errcode_none := by decide
  digits_legal := by decide
  busy_not_done := by decide
  dvalid_done := by decide
  dvalid_idle := by decide
  tvalid_dvalid := by decide
  ksave_zero := by decide
  truncv_top := by decide
  tokenv_small := by decide
  tstr_digits := by decide
  pend_legal := by intro p h; cases h

theorem witness_inv_busy : Inv busyState where
  errcode_none := by decide
  digits_legal := by decide
  busy_not_done := by decide
  dvalid_done := by decide
  dvalid_idle := by decide
  tvalid_dvalid := by decide
  ksave_zero := by decide
  truncv_top := by decide
  tokenv_small := by decide
  tstr_digits := by decide
  pend_legal := by intro p h; cases h; rfl

/-- One well-formed term of each constructor, at a boundary of its field. -/
theorem witness_DecodeEncodeRoundTrip :
    ∀ i ∈ ([.hashInit, .hashUpdate 127, .hashFinal 127, .macStart, .macFinal 127, .tokenGen, .clear,
      .illegalOp0 0xFFFFFFF0, .illegalOp8To15 0x00000008, .illegalReserved 0x00000011, .illegalReserved 0x00008002,
      .illegalReserved 0x00007F07, .rd 0xFFC, .wrCmd 0, .wrCfg 0, .wrIrqEn 0, .wrKeylen 0, .wrCounter 0, .wrMsg 15 0,
      .wrKey 15 0, .wrIgnored 0x03C 0, .wrIgnored 0x0C0 0] : List Instr), i.wf = true := by decide

/-- An illegal word of each kind of R64, and legal words at both ends of the count. -/
theorem witness_CommandWordDecoding :
    commandOf 0xFFFFFFF0 = none ∧ commandOf 0x00000008 = none ∧ commandOf 0x00000013 = none ∧
    commandOf 0x00008003 = none ∧ commandOf 0x00007F07 = none ∧
    commandOf 0x00000003 = some (.hashFinal, 0) ∧ commandOf 0x00007F05 = some (.macFinal, 127) := by decide

theorem witness_EncodeDecodeRoundTrip :
    decodeBus ⟨.read, 4, 0xFFC, 5⟩ = .ok (.rd 0xFFC) ∧ decodeBus ⟨.write, 4, 0x07C, 5⟩ = .ok (.wrMsg 15 5) := by decide

theorem witness_BusAccessDecoding_ignored :
    ∀ k ∈ ([0x000, 0x008, 0x01C, 0x03C, 0x0C0, 0xFFC] : List Nat), let off := BitVec.ofNat 12 k; off.toNat % 4 = 0 ∧
      off ≠ 0x004 ∧ off ≠ 0x00C ∧ off ≠ 0x010 ∧ off ≠ 0x014 ∧ off ≠ 0x018 ∧ ¬ (0x040 ≤ off ∧ off ≤ 0x0BC) := by decide

theorem witness_StepRunsHostAccess :
    (host State.reset (busRead 0xFFC)).inputs = .access (busRead 0xFFC) :: [] ∧
    decode (busRead 0xFFC) = .ok (.rd 0xFFC) ∧ decode (.bus ⟨.write, 4, 0x000, 1⟩) = .ok (.wrIgnored 0x000 1) := by
  decide

theorem witness_StepRunsHostAccess_platform :
    ({ State.reset with inputs := [.platform ⟨.write, 4, Config.pBase + (0xFFC : BitVec 12).toNat, 1⟩] } : State).inputs =
      .platform ⟨.write, 4, Config.pBase + (0xFFC : BitVec 12).toNat, 1⟩ :: [] ∧
    decode (.bus ⟨.write, 4, 0xFFC, 1⟩) = .ok (.wrIgnored 0xFFC 1) := ⟨rfl, by decide⟩

theorem witness_EngineCompletesPendingCommand :
    ({ busyState with inputs := [.engine] } : State).inputs = .engine :: [] ∧
    busyState.inputs = [] ∧ busyState.pend = some ⟨.hashInit, 0⟩ ∧ State.reset.busy = false := by decide

/-- The window's own addresses are met at both ends. -/
theorem witness_BusFaultOnSubWordOrMisaligned :
    (∀ b ∈ ([⟨.read, 2, 0x000, 0⟩, ⟨.write, 1, 0xFFF, 0⟩, ⟨.read, 4, 0x001, 0⟩, ⟨.read, 4, 0xFFF, 0⟩] : List BusAccess),
      b.size ≠ 4 ∨ b.off.toNat % 4 ≠ 0) ∧
    (⟨.read, 4, 0xFFC, 0⟩ : BusAccess).size = 4 ∧ (⟨.read, 4, 0xFFC, 0⟩ : BusAccess).off.toNat % 4 = 0 := by decide

theorem witness_BusFaultOnSubWordOrMisaligned_outside :
    Config.pBase + 4096 ≤ (⟨.read, 4, Config.pBase + 4096, 0⟩ : PlatformAccess).addr := le_refl _

/-- Just below the window, wherever there is such an address: `P_BASE` may be 0. -/
theorem witness_BusFaultOnSubWordOrMisaligned_below (h : 0 < Config.pBase) :
    (⟨.read, 4, Config.pBase - 1, 0⟩ : PlatformAccess).addr < Config.pBase := Nat.sub_lt h Nat.one_pos

theorem witness_PendingCommandCompletes : busyState.busy = true := by decide

theorem witness_ResetInputAndResetValues :
    ({ busyState with inputs := [.reset] } : State).inputs = .reset :: [] := by decide

theorem witness_StepKeepsInvariant :
    Inv hashOpen ∧ (nextState (step hashOpen)).isSome = true ∧ Inv busyState ∧ (nextState (step busyState)).isSome = true :=
  ⟨witness_inv, by decide, witness_inv_busy, by decide⟩

theorem witness_WellFormedInstructionAnswers : (Instr.wrIgnored 0xFFC 1).wf = true := by decide

theorem witness_CommandIsWriteToCmd : State.reset.agent = .host := by decide

/-- The hypotheses of the statements about an instruction of the Host's, and of the one about a busy block. -/
theorem witness_host_instruction :
    State.reset.agent = .host ∧ (nextState (exec (.wrMsg 15 1) State.reset)).isSome = true ∧
    busyState.agent = .host ∧ busyState.busy = true ∧ (nextState (exec (.wrMsg 15 1) busyState)).isSome = true ∧
    (nextState (exec (.rd 0xFFC) busyState)).isSome = true := by decide

/-- The hypotheses of the statements about a completion. -/
theorem witness_engine_instruction :
    (engine busyState).agent = .engine ∧
    (nextState (exec (commandInstr .hashInit 0) (engine busyState))).isSome = true ∧
    (nextState (exec (commandInstr .clear 0) (engine busyState))).isSome = true := by decide

/-- The three ways a recorded error is met by a step, and an instruction other than a read. -/
theorem witness_ErrorReturnsOnlyByClearOrReset :
    errored.err = true ∧ ((nextState (step errored)).map (·.err)) = some true ∧
    ((nextState (step (pending .clear 0 errored))).map (·.err)) = some false ∧
    ((nextState (step { errored with inputs := [.reset] })).map (·.err)) = some false ∧
    (∀ off, Instr.wrCmd 1 ≠ .rd off) ∧ (nextState (exec (.wrCmd 1) errored)).isSome = true :=
  ⟨by decide, by decide, by decide, by decide, fun _ => Instr.noConfusion, by decide⟩

theorem witness_LockedConfigurationStaysUntilReset :
    let s := host { State.reset with lock := true } (busWrite 0x00C 0x00000008)
    s.lock = true ∧ ((nextState (step s)).map fun t => (t.lock, t.digits)) = some (true, 6) ∧
    ((nextState (step { s with inputs := [.reset] })).map (·.lock)) = some false := by decide

/-- Two states with different keys, and a completion that is not keyed. -/
theorem witness_KeyNeverLeaks :
    AgreeButKey busyState { busyState with key := tokenKey } ∧ busyState.key ≠ tokenKey ∧
    busyState.pend = some ⟨.hashInit, 0⟩ ∧ (nextState (step busyState)).isSome = true :=
  ⟨rfl, by decide, rfl, by decide⟩

/-- A read of the Host's and a reset while a keyed command is pending: no step of the Engine. -/
theorem witness_KeyNeverLeaks_pending :
    ∀ e ∈ ([.access (busRead 0x080), .reset] : List Event),
      let s := { pending .tokenGen 0 State.reset with inputs := [e] }
      ¬ (s.inputs = [] ∨ ∃ rest, s.inputs = .engine :: rest) ∧ (nextState (step s)).isSome = true := by
  intro e he
  rcases List.mem_pair.1 he with rfl | rfl <;> exact ⟨by simp, by decide⟩

/-- Both reasons to hide, and both ends of each range of result registers. -/
theorem witness_IntermediateValuesHidden :
    Inv hashOpen ∧ hashOpen.mode ≠ .idle ∧ Inv busyState ∧ busyState.busy = true ∧
    ∀ k ∈ ([0x024, 0x034, 0x0C0, 0x0D0, 0x100, 0x124] : List Nat), let off := BitVec.ofNat 12 k; off.toNat % 4 = 0 ∧
      ((0x024 ≤ off ∧ off ≤ 0x034) ∨ (0x0C0 ≤ off ∧ off ≤ 0x0D0) ∨ (0x100 ≤ off ∧ off ≤ 0x124)) :=
  ⟨witness_inv, by decide, witness_inv_busy, by decide, by decide⟩

/-- Both ends of each unmapped range, and the first and last misaligned offsets. -/
theorem witness_ReadReturnsRegisterValue :
    (∀ k ∈ ([0x038, 0x03C, 0x0D4, 0x0FC, 0x128, 0xFFC] : List Nat), let off := BitVec.ofNat 12 k; off.toNat % 4 = 0 ∧
      (off = 0x038 ∨ off = 0x03C ∨ (0x0D4 ≤ off ∧ off ≤ 0x0FC) ∨ 0x128 ≤ off)) ∧
    (0x001 : BitVec 12).toNat % 4 ≠ 0 ∧ (0xFFF : BitVec 12).toNat % 4 ≠ 0 := by decide

/-- Each branch of the checks is taken, in the order of R117. -/
theorem witness_WriteCmdChecksThenAccepts :
    statusAfter busyState (busWrite 0x004 0) = some 0x00000505 ∧
    statusAfter State.reset (busWrite 0x004 0x00000009) = some 0x00000104 ∧
    statusAfter State.reset (busWrite 0x004 0x00004002) = some 0x00000204 ∧
    statusAfter macOpen (busWrite 0x004 0x00000003) = some 0x00000226 ∧
    statusAfter hashOpen (busWrite 0x004 0x00000005) = some 0x00000216 ∧
    statusAfter hashOpen (busWrite 0x004 0x00004102) = some 0x00000316 ∧
    statusAfter hashOpen (busWrite 0x004 0x00004103) = some 0x00000316 ∧
    statusAfter { State.reset with keylen := 65 } (busWrite 0x004 0x00000006) = some 0x00000404 ∧
    statusAfter { State.reset with keylen := 64 } (busWrite 0x004 0x00000004) = some 0x00000001 := by decide

/-- Both cases of the statements about a register write. -/
theorem witness_register_writes : busyState.busy = true ∧ State.reset.busy = false := by decide

theorem witness_IgnoredWriteChangesNothing :
    (∀ k ∈ ([0x000, 0x008, 0x01C, 0x03C, 0x0C0, 0xFFC] : List Nat), let off := BitVec.ofNat 12 k; off.toNat % 4 = 0 ∧
      (off = 0x000 ∨ off = 0x008 ∨ (0x01C ≤ off ∧ off ≤ 0x03C) ∨ 0x0C0 ≤ off)) ∧
    (host State.reset (.bus ⟨.write, 4, 0xFFC, 1⟩)).inputs = .access (.bus ⟨.write, 4, 0xFFC, 1⟩) :: [] := by decide

theorem witness_RaiseErrorKeepsFirstCode : State.reset.err = false ∧ errored.err = true := by decide

theorem witness_InterruptLine : State.reset.busy = false ∧ (0xFFFFFFFE : Word).getLsbD 0 = false := by decide

/-- Words the statements about the commands call illegal: one more bit, or a reserved bit, for each OP. -/
theorem witness_command_words :
    ((0x00000101 : Word).extractLsb' 0 4 = 1 ∧ (0x00000101 : Word) ≠ 1) ∧
    ((0x00000012 : Word).extractLsb' 0 4 = 2 ∧ (0x00000012 : Word).extractLsb' 4 4 ≠ 0) ∧
    ((0x80000003 : Word).extractLsb' 0 4 = 3 ∧ (0x80000003 : Word).extractLsb' 15 17 ≠ 0) ∧
    ((0x00000014 : Word).extractLsb' 0 4 = 4 ∧ (0x00000014 : Word) ≠ 4) ∧
    ((0x00008005 : Word).extractLsb' 0 4 = 5 ∧ (0x00008005 : Word).extractLsb' 15 17 ≠ 0) ∧
    ((0x00000106 : Word).extractLsb' 0 4 = 6 ∧ (0x00000106 : Word) ≠ 6) ∧
    ((0x80000007 : Word).extractLsb' 0 4 = 7 ∧ (0x80000007 : Word) ≠ 7) := by decide

/-- The states the statements about the commands speak of: for the Engine at the greatest count, for the Host busy and
not. -/
theorem witness_command_states :
    (engine hashOpen).agent = .engine ∧ (64 : BitVec 7) ≤ 64 ∧ State.reset.agent = .host ∧ State.reset.busy = false ∧
    busyState.agent = .host ∧ busyState.busy = true := by decide

theorem witness_MacStartLatchesKey :
    let s := { engine State.reset with keylen := 64 }
    s.agent = .engine ∧ s.keylen ≤ 64 := by decide

theorem witness_MacFinalProducesMac :
    ([] : List Byte).length ≤ 64 ∧ macOpen.ksave.toList = [] ++ List.replicate (64 - ([] : List Byte).length) 0 := by
  decide

theorem witness_TokenGenComputesCode :
    (∀ k ∈ ([1, 10] : List Nat), let s := { engine State.reset with digits := BitVec.ofNat 4 k, keylen := 64 }
      s.agent = .engine ∧ 1 ≤ s.digits ∧ s.digits ≤ 10 ∧ s.keylen ≤ 64) := by decide

theorem witness_IllegalWordRecordsError :
    (0xFFFFFFF0 : Word).extractLsb' 0 4 = 0 ∧ 8 ≤ (0x00000008 : Word).extractLsb' 0 4 ∧
    8 ≤ (0x0000000F : Word).extractLsb' 0 4 ∧
    ∀ k ∈ ([0x00000011, 0x00008007, 0x00000101, 0x00007F07] : List Nat), let w := BitVec.ofNat 32 k;
      w.extractLsb' 0 4 ≠ 0 ∧ w.extractLsb' 0 4 < 8 ∧
      (w.extractLsb' 4 4 ≠ 0 ∨ w.extractLsb' 15 17 ≠ 0 ∨
        (w.extractLsb' 8 7 ≠ 0 ∧ (w.extractLsb' 0 4 = 1 ∨ w.extractLsb' 0 4 = 4 ∨
          w.extractLsb' 0 4 = 6 ∨ w.extractLsb' 0 4 = 7))) := by decide

/-- The first and last rounds of each phase, and the last bit of a word. -/
theorem witness_rounds :
    ∀ t ∈ ([0, 19, 20, 39, 40, 59, 60, 79] : List Nat), t < 80 ∧ 31 < 32 ∧
      (t / 20 = 0 ∨ (t / 20 = 1 ∨ t / 20 = 3) ∨ t / 20 = 2) := by decide

/-- A block of 64 bytes, and the block of zeros. -/
theorem witness_block : (List.replicate 64 (0x61 : Byte)).length = 64 ∧ (List.replicate 64 (0 : Byte)).length = 64 :=
  ⟨List.length_replicate .., List.length_replicate ..⟩

/-- A tail at each end of each padding branch (R74, R75). -/
theorem witness_tails :
    ∀ n ∈ ([0, 55, 56, 63, 64] : List Nat),
      ((List.replicate n (0x61 : Byte)).length ≤ 55 ∨
        (56 ≤ (List.replicate n (0x61 : Byte)).length ∧ (List.replicate n (0x61 : Byte)).length ≤ 63) ∨
        (List.replicate n (0x61 : Byte)).length = 64) := by simp

/-- The first and the last of the zero bytes, where a tail leaves some. -/
theorem witness_PaddingLayout :
    (List.replicate 0 (0x61 : Byte)).length ≤ 63 ∧ 0 < 1 ∧ 1 < 64 - 8 ∧
    (List.replicate 63 (0x61 : Byte)).length ≤ 63 ∧ 63 < 119 ∧ 119 < 128 - 8 := by simp

theorem witness_Sha1OfBlocksAndTail :
    (∀ b ∈ [List.replicate 64 (0x61 : Byte)], b.length = 64) ∧ (List.replicate 63 (0x61 : Byte)).length < 64 := by simp

theorem witness_BigEndianPrimitives : 0xFFFF < 2 ^ (8 * 2) := by decide

theorem witness_WindowBytePacking : 4 * 15 + 3 < (List.replicate 64 (0 : Byte)).length := by simp

/-- Keys of the least and the greatest length, and a position on each side of the end of a key. -/
theorem witness_KeyPadBytes :
    ([] : List Byte).length ≤ 64 ∧ (List.replicate 64 (0x0B : Byte)).length ≤ 64 ∧
    63 < (List.replicate 64 (0x0B : Byte)).length ∧ ([] : List Byte).length ≤ 0 ∧
    (List.replicate 20 (0x0B : Byte)).length ≤ 20 := by simp

theorem witness_HmacTwoPasses : (List.replicate 64 (0x0B : Byte)).length ≤ 64 := by simp

/-- A MAC of 20 bytes, and the least and the greatest width of a code. -/
theorem witness_TruncationAndReduction :
    (List.replicate 20 (0xFF : Byte)).length = 20 ∧ (0x7FFFFFFF : Word).toNat < 2 ^ 31 ∧
    (∀ d ∈ ([1, 10] : List Nat), 1 ≤ d ∧ d ≤ 10) := by decide

theorem witness_DecimalStringDigits : (0x7FFFFFFF : Word).toNat < 10 ^ 10 ∧ (9 : Word).toNat < 10 ^ 1 := by decide

/-- A plain stream with nothing absorbed, and the greatest count. -/
theorem witness_HashStreamComputesSha1 :
    (engine hashOpen).agent = .engine ∧ HashStream [] (engine hashOpen) ∧ (64 : BitVec 7) ≤ 64 :=
  ⟨rfl, ⟨rfl, rfl, rfl, rfl⟩, by decide⟩

/-- A keyed stream with nothing absorbed, under the empty key, and the greatest count and key length. -/
theorem witness_MacStreamComputesHmac :
    (engine macOpen).agent = .engine ∧ MacStream [] [] (engine macOpen) ∧ (64 : BitVec 7) ≤ 64 ∧
    ({ engine State.reset with keylen := 64 } : State).keylen ≤ 64 :=
  ⟨rfl, ⟨rfl, by simp, rfl, rfl, rfl, by decide⟩, by decide, by decide⟩

/-- Waits of different lengths. -/
theorem witness_HashOfAnyMessage :
    let s := { State.reset with inputs := hashEvents (fun w => 2 * w) (List.replicate 65 0x61) }
    s.busy = false ∧ s.inputs = hashEvents (fun w => 2 * w) (List.replicate 65 0x61) := ⟨rfl, rfl⟩

theorem witness_MacOfAnyMessage :
    let s := { State.reset with inputs := macEvents (fun w => 3 - w) (List.replicate 64 0x0B) [] }
    (List.replicate 64 (0x0B : Byte)).length ≤ 64 ∧ s.busy = false ∧
      s.inputs = macEvents (fun w => 3 - w) (List.replicate 64 0x0B) [] := ⟨by simp, rfl, rfl⟩

/-- The least and the greatest width, the empty key and the longest. -/
theorem witness_MacOfAnyMessage_token :
    (∀ d ∈ ([1, 10] : List Nat), let s := { State.reset with digits := BitVec.ofNat 4 d }
      1 ≤ s.digits ∧ s.digits ≤ 10 ∧ s.busy = false) ∧
    ([] : List Byte).length ≤ 64 ∧ (List.replicate 64 (0x0B : Byte)).length ≤ 64 ∧
    ({ State.reset with inputs := tokenEvents 3 [] 0xFFFFFFFF } : State).inputs = tokenEvents 3 [] 0xFFFFFFFF :=
  ⟨by decide, by simp, by simp, rfl⟩

/-- Two windows that agree in the bytes used and differ past them. -/
theorem witness_StaleBytesIgnored :
    let s := { engine hashOpen with msg := words [0x61626300], key := words [0x61626300], keylen := 3 }
    s.agent = .engine ∧ s.keylen ≤ 64 ∧ words [0x616263FF] ≠ s.msg ∧
    (windowBytes (words [0x616263FF])).take (3 : BitVec 7).toNat = (msgBytes s).take (3 : BitVec 7).toNat ∧
    (windowBytes (words [0x616263FF])).take s.keylen.toNat = (keyBytes s).take s.keylen.toNat := by decide

end Sys2Proof.Tests
end

section
/-! PROOFS. MODE (R34): its field of STATUS, what the Host's instructions leave it, and what each completion leaves it. -/

namespace Sys2Proof.Machine

/-! ## MODE in STATUS -/

/-- No flag of STATUS reaches bits 5:4, where MODE stands (R18). -/
theorem bitWord_shiftLeft_modeField {k : Nat} (b : Bool) (hk : k ∈ [0, 1, 2, 6, 7]) :
    (bitWord b <<< k).extractLsb' 4 2 = 0 := by
  have each : ∀ k ∈ [0, 1, 2, 6, 7], ∀ b, (bitWord b <<< k).extractLsb' 4 2 = 0 := by decide
  exact each k hk b

theorem errCode_shiftLeft_modeField (c : ErrCode) : (errCode c <<< 8).extractLsb' 4 2 = 0 := by
  cases c <;> decide

theorem modeCode_shiftLeft_modeField (m : Mode) : (modeCode m <<< 4).extractLsb' 4 2 = (modeCode m).setWidth 2 := by
  cases m <;> decide

/-- Bits 5:4 of STATUS are the value of MODE (R18, R34). -/
theorem statusWord_modeField (s : State) : (statusWord s).extractLsb' 4 2 = (modeCode s.mode).setWidth 2 := by
  have busy : (bitWord s.busy).extractLsb' 4 2 = 0 := by
    simpa using bitWord_shiftLeft_modeField (k := 0) s.busy (by decide)
  simp [statusWord, BitVec.extractLsb'_or, busy, bitWord_shiftLeft_modeField, errCode_shiftLeft_modeField,
    modeCode_shiftLeft_modeField]

/-! ## MODE and the instructions -/

theorem exec_host_mode {i : Instr} {s t : State} (ha : s.agent = .host) (h : exec i s = .next t) :
    t.mode = s.mode := by
  obtain ⟨c, -, rfl⟩ | ⟨p, -, -, rfl⟩ | ⟨v, rfl⟩ | rfl | ⟨-, -, d, l, -, -, rfl⟩ | ⟨-, b, rfl⟩ | ⟨-, n, rfl⟩ |
    ⟨-, c, rfl⟩ | ⟨-, m, rfl⟩ | ⟨-, k, rfl⟩ := exec_host_cases ha h
  all_goals rfl

/-- The MODE each command's completion leaves (R34). -/
def modeAfter : Op → Mode → Mode
  | .hashInit, _ => .hash
  | .hashUpdate, m => m
  | .macStart, _ => .mac
  | .hashFinal, _ | .macFinal, _ | .tokenGen, _ | .clear, _ => .idle

@[simp] theorem commandEffect_mode (c : Op) (n : BitVec 7) (s : State) :
    (commandEffect c n s).mode = modeAfter c s.mode := by
  cases c <;> rfl

/-- Settles O15: STATUS[5:4] is the code of MODE, the Host's cases leave MODE alone, and the completions follow R34's
table. -/
theorem modeTransitions : Obligations.ModeTransitions := by
  refine ⟨rfl, fun s => ?status, fun _ _ _ => exec_host_mode, fun c n s ha => ?completion⟩
  case status =>
    rw [statusWord_modeField]
    cases s.mode <;> decide
  case completion =>
    refine ⟨_, exec_command_engine c n ha, ?_⟩
    rw [finishCommand_mode, commandEffect_mode]
    cases c <;> rfl

end Sys2Proof.Machine
end

section
/-! PROOFS. The byte order of a window and of a byte sequence (R49). -/

namespace Sys2Proof.Machine

/-! ## A word from its four bytes -/

/-- Four bytes as one word, the first at the top (R49). -/
def packBytes (b0 b1 b2 b3 : Byte) : Word :=
  b0.zeroExtend 32 <<< 24 ||| b1.zeroExtend 32 <<< 16 ||| b2.zeroExtend 32 <<< 8 ||| b3.zeroExtend 32

/-- A byte shifted to one of the four places is read back there, and zero is read at the other three. -/
theorem extractLsb'_shiftLeft_byte (b : Byte) {k m : Nat} (hk : 8 ∣ k) (hm : 8 ∣ m) (hm32 : m < 32) :
    (b.zeroExtend 32 <<< k).extractLsb' m 8 = if m = k then b else 0 := by
  ext j hj
  have bit : ((b.zeroExtend 32 <<< k).extractLsb' m 8)[j] = (decide (k ≤ m + j) && b.getLsbD (m + j - k)) := by
    have inWord : m + j < 32 := by omega
    simp [inWord, ← decide_not]
  rw [bit]
  rcases lt_trichotomy m k with h | h | h
  · have : ¬ k ≤ m + j := by omega
    simp [this, h.ne]
  · simp [h, BitVec.getLsbD_eq_getElem hj]
  · have : 8 ≤ m + j - k := by omega
    simp [BitVec.getLsbD_of_ge _ _ this, h.ne']

/-- The four places do not overlap: each byte comes back from its own. -/
theorem wordBytes_packBytes (b0 b1 b2 b3 : Byte) : wordBytes (packBytes b0 b1 b2 b3) = [b0, b1, b2, b3] := by
  rw [packBytes, ← BitVec.shiftLeft_zero (b3.zeroExtend 32)]
  simp only [wordBytes, BitVec.extractLsb'_or]
  simp [extractLsb'_shiftLeft_byte, -BitVec.shiftLeft_zero, -BitVec.truncate_eq_setWidth]

theorem wordOfBytes_four (b0 b1 b2 b3 : Byte) : wordOfBytes [b0, b1, b2, b3] = packBytes b0 b1 b2 b3 := by
  rw [← wordBytes_packBytes, wordOfBytes_wordBytes]

theorem slice_succ {b : List Byte} {i : Nat} (n : Nat) (h : i < b.length) :
    slice b i (n + 1) = b.getD i 0 :: slice b (i + 1) n := by
  rw [slice, slice, List.drop_eq_getElem_cons h, List.take_succ_cons, List.getD_eq_getElem _ _ h]

theorem slice_four {b : List Byte} {i : Nat} (h : i + 3 < b.length) :
    slice b i 4 = [b.getD i 0, b.getD (i + 1) 0, b.getD (i + 2) 0, b.getD (i + 3) 0] := by
  rw [slice_succ 3 (by omega), slice_succ 2 (by omega), slice_succ 1 (by omega), slice_succ 0 h]
  rfl

/-- Word i of a byte sequence is its four bytes, the first at the top (R49). -/
theorem wordAt_eq_packBytes {b : List Byte} {i : Nat} (h : 4 * i + 3 < b.length) :
    wordAt b i = packBytes (b.getD (4 * i) 0) (b.getD (4 * i + 1) 0) (b.getD (4 * i + 2) 0)
      (b.getD (4 * i + 3) 0) := by
  rw [wordAt, slice_four h, wordOfBytes_four]

/-! ## A byte of a window -/

/-- Byte k of a window is in word `k div 4`, bits 31:24 first (R49). -/
theorem getElem?_windowBytes (v : Vector Word 16) {k : Nat} (hk : k / 4 < 16) :
    (windowBytes v)[k]? = some (v[k / 4].extractLsb' (24 - 8 * (k % 4)) 8) := by
  rw [windowBytes, getElem?_flatMap_wordBytes, Vector.getElem?_toList, Vector.getElem?_eq_getElem hk, Option.map_some]

/-- Settles O50: the window's length, its bytes and its words, and the word of any four bytes, each by its lemma. -/
theorem windowBytePacking : Obligations.WindowBytePacking :=
  ⟨fun v => ⟨length_windowBytes v, fun k => getElem?_windowBytes v (by omega), wordAt_windowBytes v⟩,
    fun _ _ h => wordAt_eq_packBytes h⟩

end Sys2Proof.Machine
end

section
/-! PROOFS. Which command words are illegal (R64), and what each BUS access decodes to (R62). -/

namespace Sys2Proof

/-! ## Command words -/

/-- R64's condition for `Illegal`, on the fields of the word. -/
def IllegalWord (v : Word) : Prop :=
  fieldOp v = 0 ∨ 8 ≤ fieldOp v ∨ fieldRsv0 v ≠ 0 ∨ fieldRsv1 v ≠ 0 ∨
    (fieldOp v ≠ 2 ∧ fieldOp v ≠ 3 ∧ fieldOp v ≠ 5 ∧ fieldNbytes v ≠ 0)

theorem takesCount_eq_false_iff (c : Op) : takesCount c = false ↔ opCode c ≠ 2 ∧ opCode c ≠ 3 ∧ opCode c ≠ 5 := by
  cases c <;> decide

theorem commandOf_eq_none_iff_illegalWord {v : Word} : commandOf v = none ↔ IllegalWord v := by
  rw [commandOf_eq_none, IllegalWord, ← or_assoc (a := fieldOp v = 0), ← opOfCode_eq_none]
  cases hop : opOfCode (fieldOp v) with
  | none => simp
  | some c => simp [← opCode_of_opOfCode hop, takesCount_eq_false_iff, and_assoc]

/-- A word that is not illegal is the command whose OP value it holds, with its NBYTES. -/
theorem exists_command_of_not_illegalWord {v : Word} (h : ¬ IllegalWord v) :
    ∃ c : Op, opCode c = fieldOp v ∧ commandOf v = some (c, fieldNbytes v) ∧
      decodeCmd v = commandInstr c (fieldNbytes v) := by
  obtain ⟨⟨c, n⟩, hc⟩ := Option.ne_none_iff_exists'.1 (mt commandOf_eq_none_iff_illegalWord.1 h)
  obtain ⟨hop, -, -, rfl, -⟩ := commandOf_eq_some hc
  exact ⟨c, hop, hc, decodeCmd_of_some hc⟩

/-- Settles O3: `commandOf` rejects exactly the illegal words, and reads every other word's OP and NBYTES. -/
theorem commandWordDecoding : Obligations.CommandWordDecoding :=
  fun _ => ⟨commandOf_eq_none_iff_illegalWord.2, exists_command_of_not_illegalWord⟩

/-! ## Bus accesses -/

/-- Bits 1:0 of an offset are 0 exactly at the multiples of 4 (R58). -/
theorem extractLsb'_low_eq_zero_iff {off : BitVec 12} : off.extractLsb' 0 2 = 0 ↔ off.toNat % 4 = 0 := by
  rw [← BitVec.toNat_inj]
  simp [BitVec.extractLsb'_toNat]

theorem decodeBus_read {off : BitVec 12} (d : Word) (h : off.toNat % 4 = 0) :
    decodeBus ⟨.read, 4, off, d⟩ = .ok (.rd off) := by
  simp [decodeBus, extractLsb'_low_eq_zero_iff.2 h]

theorem decodeBus_write {off : BitVec 12} (v : Word) (h : off.toNat % 4 = 0) :
    decodeBus ⟨.write, 4, off, v⟩ = .ok (decodeWrite off v) := by
  simp [decodeBus, extractLsb'_low_eq_zero_iff.2 h]

/-- A window of the register map is a range of 64 offsets. -/
theorem toNat_windowOf (off : BitVec 12) : (windowOf off).toNat = off.toNat / 64 := by
  have : off.toNat / 64 < 64 := by omega
  simp [windowOf, BitVec.extractLsb'_toNat, Nat.shiftRight_eq_div_pow, Nat.mod_eq_of_lt this]

/-- A multiple of 4 in one of the windows of MSG and KEY is at least MSG0's offset and at most KEY15's (R15). -/
theorem msg_key_range_of_windowOf {off : BitVec 12} (h4 : off.toNat % 4 = 0)
    (h : windowOf off = 1 ∨ windowOf off = 2) : 0x040 ≤ off ∧ off ≤ 0x0BC := by
  have hw : off.toNat / 64 = 1 ∨ off.toNat / 64 = 2 := by
    rw [← toNat_windowOf]
    exact h.imp (congrArg BitVec.toNat) (congrArg BitVec.toNat)
  change 0x040 ≤ off.toNat ∧ off.toNat ≤ 0x0BC
  omega

/-- What is no register of its own and lies in no window is not writable. -/
theorem decodeWrite_ignored {off : BitVec 12} (v : Word) (hcmd : off ≠ offCmd) (hcfg : off ≠ offCfg)
    (hirq : off ≠ offIrqEn) (hkeylen : off ≠ offKeylen) (hcounter : off ≠ offCounter)
    (hmsg : windowOf off ≠ 1) (hkey : windowOf off ≠ 2) : decodeWrite off v = .wrIgnored off v := by
  rw [decodeWrite, if_neg hcmd, if_neg hcfg, if_neg hirq, if_neg hkeylen, if_neg hcounter, if_neg hmsg, if_neg hkey]

/-- The offset `base + 4i` of R15, as a sum of numbers. -/
theorem ofNat_eq_windowOffset (i : BitVec 4) :
    BitVec.ofNat 12 (0x040 + 4 * i.toNat) = windowOffset offMsg i ∧
    BitVec.ofNat 12 (0x080 + 4 * i.toNat) = windowOffset offKey i := by
  revert i
  decide

/-- Settles O5: each writable offset by its own lemma, and every other multiple of 4 by exclusion. -/
theorem busAccessDecoding : Obligations.BusAccessDecoding := by
  refine ⟨fun _ => decodeBus_read, decode_write_offCmd, decode_write_offCfg, decode_write_offIrqEn,
    decode_write_offKeylen, decode_write_offCounter, fun i v => ?msg, fun i v => ?key,
    fun off v h4 hcmd hcfg hirq hkeylen hcounter hrange => ?ignored⟩
  case msg => rw [(ofNat_eq_windowOffset i).1]; exact decode_write_offMsg i v
  case key => rw [(ofNat_eq_windowOffset i).2]; exact decode_write_offKey i v
  case ignored =>
    have hwindow : ¬ (windowOf off = 1 ∨ windowOf off = 2) := mt (msg_key_range_of_windowOf h4) hrange
    obtain ⟨hmsg, hkey⟩ := not_or.1 hwindow
    rw [decodeBus_write v h4, decodeWrite_ignored v hcmd hcfg hirq hkeylen hcounter hmsg hkey]

end Sys2Proof
end

section
/-! PROOFS. The commands HASH_INIT, HASH_UPDATE and HASH_FINAL (40_digest.md section 2): their words, and their two
steps. The lemmas about command words and about the Host's step are for every command. -/

namespace Sys2Proof

/-! ## The words of one command -/

theorem opCode_injective : Function.Injective opCode := fun c d h =>
  Option.some_inj.1 (by rw [← opOfCode_opCode c, h, opOfCode_opCode])

/-- An illegal word whose OP is a command's is of the third illegal row (R63). -/
theorem decodeCmd_of_illegalWord {w : Word} {op : Op} (hop : fieldOp w = opCode op) (hw : IllegalWord w) :
    decodeCmd w = .illegalReserved w := by
  rw [decodeCmd_of_none (commandOf_eq_none_iff_illegalWord.2 hw), hop]
  cases op <;> rfl

theorem illegalWord_of_reserved {w : Word} (h : fieldRsv0 w ≠ 0 ∨ fieldRsv1 w ≠ 0) : IllegalWord w :=
  .inr (.inr (h.imp_right .inl))

/-- A command without a count has one legal word (R63). -/
theorem illegalWord_of_ne_cmdWord {w : Word} {op : Op} (hop : fieldOp w = opCode op) (hcount : takesCount op = false)
    (hne : w ≠ cmdWord op 0) : IllegalWord w := by
  by_contra legal
  obtain ⟨c, hc, hw, -⟩ := exists_command_of_not_illegalWord legal
  obtain rfl : c = op := opCode_injective (hc.trans hop)
  obtain ⟨-, -, -, -, hzero⟩ := commandOf_eq_some hw
  exact hne (by rw [← cmdWord_of_commandOf hw, hzero hcount])

theorem decodeCmd_cmdWord {op : Op} (n : BitVec 7) (h : takesCount op = true) :
    decodeCmd (cmdWord op n) = commandInstr op n :=
  decodeCmd_of_some (commandOf_cmdWord n h)

theorem decodeCmd_cmdWord_zero (op : Op) : decodeCmd (cmdWord op 0) = commandInstr op 0 :=
  decodeCmd_of_some (commandOf_cmdWord_zero op)

/-- OP and NBYTES do not overlap, so a command's word is also their sum (R57). -/
theorem cmdWord_eq_add (op : Op) (n : BitVec 7) :
    cmdWord op n = (opCode op).zeroExtend 32 + (n.zeroExtend 32 <<< 8) := by
  cases op <;> revert n <;> decide

end Sys2Proof

namespace Sys2Proof.Machine

/-! ## The two steps of a command -/

theorem exec_command_host_busy {s : State} (op : Op) (n : BitVec 7) (hn : takesCount op = true ∨ n = 0)
    (ha : s.agent = .host) (hb : s.busy = true) :
    exec (commandInstr op n) s = .next (raiseError .busyWrite s) := by
  rw [exec_command_host op n hn ha, issueCommand_of_busy _ hb]

/-- Settles O32: its only word is 0x00000001, and it has no check but BUSY's. -/
theorem hashInitOpensStream : Obligations.HashInitOpensStream := by
  refine fun s => ⟨decodeCmd_cmdWord_zero .hashInit, fun w hop hne => ?illegal,
    exec_command_engine .hashInit 0, exec_command_host_busy .hashInit 0 (.inr rfl), fun ha hb => ?accepted⟩
  case illegal =>
    exact decodeCmd_of_illegalWord (op := .hashInit) hop (illegalWord_of_ne_cmdWord (op := .hashInit) hop rfl hne)
  case accepted =>
    have legal : PendingLegal ⟨.hashInit, 0⟩ s := rfl
    exact (exec_command_host .hashInit 0 (.inr rfl) ha).trans
      (congrArg _ (issueCommand_of_legal hb (commandOf_cmdWord_zero .hashInit) legal))

/-- Settles O33: the Host's step is `CmdCheck` on a word that reads back as HASH_UPDATE. -/
theorem hashUpdateAbsorbsBlock : Obligations.HashUpdateAbsorbsBlock := by
  refine fun s n => ⟨decodeCmd_cmdWord (op := .hashUpdate) 64 rfl, fun w hop hrsv => ?illegal,
    exec_command_engine .hashUpdate n, fun ha => ?host⟩
  case illegal => exact decodeCmd_of_illegalWord (op := .hashUpdate) hop (illegalWord_of_reserved hrsv)
  case host =>
    refine (exec_command_host .hashUpdate n (.inl rfl) ha).trans (congrArg _ ?_)
    cases hb : s.busy
    · have check : cmdCheck (cmdWord .hashUpdate n) s = if s.mode = .idle then .error .badSequence
          else if n ≠ 64 then .error .badNbytes else .ok ⟨.hashUpdate, n⟩ :=
        cmdCheck_command hb (commandOf_cmdWord n rfl)
      rw [issueCommand, check, if_neg Bool.false_ne_true]
      split_ifs with hmode hcount
      · rfl
      · rfl
      · obtain rfl : n = 64 := not_not.1 hcount
        rfl
    · rw [issueCommand_of_busy _ hb]; rfl

/-- Settles O34: as HASH_UPDATE, for every count at once. -/
theorem hashFinalProducesDigest : Obligations.HashFinalProducesDigest := by
  refine fun s n => ⟨?word, fun w hop hrsv => ?illegal, fun ha _ => ?engine, fun ha => ?host⟩
  case word => exact (congrArg decodeCmd (cmdWord_eq_add .hashFinal n)).symm.trans (decodeCmd_cmdWord n rfl)
  case illegal => exact decodeCmd_of_illegalWord (op := .hashFinal) hop (illegalWord_of_reserved hrsv)
  case engine =>
    rw [BitVec.ofNat_toNat]
    exact exec_command_engine .hashFinal n ha
  case host =>
    refine (exec_command_host .hashFinal n (.inl rfl) ha).trans (congrArg _ ?_)
    cases hb : s.busy
    · have check : cmdCheck (cmdWord .hashFinal n) s = if s.mode ≠ .hash then .error .badSequence
          else if 64 < n then .error .badNbytes else .ok ⟨.hashFinal, n⟩ :=
        cmdCheck_command hb (commandOf_cmdWord n rfl)
      rw [issueCommand, check, if_neg Bool.false_ne_true]
      split_ifs <;> rfl
    · rw [issueCommand_of_busy _ hb]; rfl

end Sys2Proof.Machine
end

section
/-! PROOFS. SHA-1 as the pure functions of 40_digest.md section 1: one round, the schedule, the padding, the last blocks,
whole messages and the digest's bytes. -/

namespace Sys2Proof.Machine

/-! ## Constants and one round (R67, R68, R72) -/

theorem rotl_eq_rotateLeft {n : Nat} (h : n < 32) (x : Word) : rotl n x = x.rotateLeft n := by
  rw [rotl, BitVec.rotateLeft_def, Nat.mod_eq_of_lt h]

/-- `K(t)` is chosen by the phase `t div 20` (R68). -/
theorem roundConstant_eq {t : Nat} (h : t < 80) :
    roundConstant t = ([0x5A827999, 0x6ED9EBA1, 0x8F1BBCDC, 0xCA62C1D6] : List Word).getD (t / 20) 0 := by
  revert t
  decide

/-- Settles O40: the two rotations of a round are those of `BitVec`, and the rest is the definitions'. -/
theorem constantsAndRoundRule : Obligations.ConstantsAndRoundRule := by
  refine ⟨rfl, fun _ => roundConstant_eq, fun t w v _ => ?_⟩
  rw [roundStep, rotl_eq_rotateLeft (by decide), rotl_eq_rotateLeft (by decide)]

/-! ## The schedule (R70) -/

/-- The schedule is held newest first while it is extended. -/
theorem getD_schedule (m : List Byte) {i : Nat} (h : i < 80) :
    (schedule m).getD i 0 = (extendSchedule 64 ((List.range 16).map (wordAt m)).reverse).getD (79 - i) 0 := by
  have hlen : (extendSchedule 64 ((List.range 16).map (wordAt m)).reverse).length = 80 := by
    simp [length_extendSchedule]
  rw [schedule, List.getD_eq_getElem?_getD, List.getElem?_reverse (by omega), hlen, List.getD_eq_getElem?_getD]

/-- Words 0 to 15 are the words of the block. -/
theorem take_schedule (m : List Byte) : (schedule m).take 16 = (List.range 16).map (wordAt m) := by
  rw [schedule, List.take_reverse, length_extendSchedule, List.length_reverse, List.length_map, List.length_range,
    Nat.add_sub_cancel, drop_extendSchedule, List.reverse_reverse]

theorem getD_schedule_block (m : List Byte) {i : Nat} (h : i < 16) : (schedule m).getD i 0 = wordAt m i := by
  rw [List.getD_eq_getElem?_getD, ← List.getElem?_take_of_lt h, take_schedule]
  simp [h]

/-- Each later word is made from the four before it. -/
theorem getD_schedule_recurrence (m : List Byte) {i : Nat} (h16 : 16 ≤ i) (h80 : i < 80) :
    (schedule m).getD i 0 =
      rotl 1 ((schedule m).getD (i - 3) 0 ^^^ (schedule m).getD (i - 8) 0 ^^^
        (schedule m).getD (i - 14) 0 ^^^ (schedule m).getD (i - 16) 0) := by
  have back : ∀ d, d ≤ 16 → 79 - (i - d) = 79 - i + d := by omega
  rw [getD_schedule m h80, getD_schedule m (i := i - 3) (by omega), getD_schedule m (i := i - 8) (by omega),
    getD_schedule m (i := i - 14) (by omega), getD_schedule m (i := i - 16) (by omega),
    back 3 (by decide), back 8 (by decide), back 14 (by decide), back 16 (by decide)]
  exact getD_extendSchedule 64 _ (by omega)

theorem unBE_zeros (n : Nat) : unBE (List.replicate n 0) = 0 := by
  induction n with
  | zero => rfl
  | succ n ih => rw [List.replicate_succ, unBE_cons, ih]; simp

theorem wordAt_zeros (n i : Nat) : wordAt (List.replicate n 0) i = 0 := by
  rw [wordAt, slice, List.drop_replicate, List.take_replicate, wordOfBytes, unBE_zeros]
  rfl

/-- The all-zero block (R70): its words are 0, and the XOR and rotation of zeros is 0. -/
theorem getD_schedule_zeros {i : Nat} (h : i < 80) : (schedule (List.replicate 64 0)).getD i 0 = 0 := by
  induction i using Nat.strongRecOn with
  | ind i ih =>
    rcases Nat.lt_or_ge i 16 with h16 | h16
    · rw [getD_schedule_block _ h16, wordAt_zeros]
    · rw [getD_schedule_recurrence _ h16 h, ih (i - 3) (by omega) (by omega), ih (i - 8) (by omega) (by omega),
        ih (i - 14) (by omega) (by omega), ih (i - 16) (by omega) (by omega)]
      rfl

/-- Settles O42: the first 16 words, the recurrence and the all-zero block, each by its lemma. -/
theorem scheduleRecurrence : Obligations.ScheduleRecurrence := by
  refine fun m _ => ⟨length_schedule m, fun i => getD_schedule_block m, fun i => getD_schedule_recurrence m, ?zeros⟩
  case zeros =>
    rintro rfl i
    exact getD_schedule_zeros

/-! ## The padding (R74) -/

/-- How many zeros stand between the marker and the length field of a tail of `n` bytes. -/
def padZeros (n : Nat) : Nat := if n ≤ 55 then 55 - n else 119 - n

/-- One layout for one block and for two. -/
theorem pad_eq {t : List Byte} (len : BitVec 64) (h : t.length ≤ 63) :
    pad t len = t ++ 0x80 :: (List.replicate (padZeros t.length) 0 ++ beBytes 8 len.toNat) := by
  unfold pad padZeros
  split
  · simp
  · have : 119 - t.length = 63 - t.length + 56 := by omega
    simp [this, List.replicate_add]

theorem length_pad_eq_padZeros {t : List Byte} (len : BitVec 64) (h : t.length ≤ 63) :
    (pad t len).length = t.length + 1 + padZeros t.length + 8 := by
  rw [pad_eq len h, List.length_append, List.length_cons, List.length_append, List.length_replicate, length_beBytes]
  omega

/-- Settles O44: every part is read off the layout. -/
theorem paddingLayout : Obligations.PaddingLayout := by
  intro t len h
  refine ⟨length_pad len h, ?tail, ?marker, fun k hlo hhi => ?zeros, ?lengthField⟩
  case tail => rw [pad_eq len h, List.take_left]
  case marker => rw [pad_eq len h, List.getElem?_append_right le_rfl, Nat.sub_self]; rfl
  case zeros =>
    rw [length_pad_eq_padZeros len h] at hhi
    obtain ⟨j, rfl⟩ := Nat.exists_eq_add_of_lt hlo
    rw [pad_eq len h, List.getElem?_append_right (by omega), show t.length + j + 1 - t.length = j + 1 by omega,
      List.getElem?_cons_succ, List.getElem?_append_left (by simp; omega), List.getElem?_replicate_of_lt (by omega)]
  case lengthField =>
    rw [length_pad_eq_padZeros len h, Nat.add_sub_cancel, pad_eq len h, List.append_cons, ← List.append_assoc]
    exact List.drop_left' (by simp; omega)

/-! ## Finishing (R75) -/

theorem compressBlocks_pair (h : Digest) {b : List Byte} (hb : b.length = 128) :
    compressBlocks h b 2 = compress (compress h (b.take 64)) (b.drop 64) := by
  rw [compressBlocks_succ, compressBlocks_one, slice, List.take_of_length_le (l := b.drop (64 * 1)) (by simp [hb])]

theorem finish_one_block (h : Digest) {t : List Byte} (len : BitVec 64) (ht : t.length ≤ 55) :
    finish h t len = compress h (pad t len) := by
  have hpad : (pad t len).length = 64 := by rw [length_pad len (by omega), if_pos ht]
  rw [finish, if_neg (by omega), hpad]
  exact compressBlocks_single h hpad

theorem finish_two_blocks (h : Digest) {t : List Byte} (len : BitVec 64) (hlo : 56 ≤ t.length) (hhi : t.length ≤ 63) :
    finish h t len = compress (compress h ((pad t len).take 64)) ((pad t len).drop 64) := by
  have hpad : (pad t len).length = 128 := by rw [length_pad len hhi, if_neg (by omega)]
  rw [finish, if_neg (by omega), hpad]
  exact compressBlocks_pair h hpad

/-- Settles O45: a tail of 64 bytes is compressed and leaves the empty tail, which has one block. -/
theorem finishCompressesOneOrTwoBlocks : Obligations.FinishCompressesOneOrTwoBlocks := by
  refine fun h t len => ⟨finish_one_block h len, finish_two_blocks h len, fun ht => ?_⟩
  rw [finish_block h len ht, finish_one_block _ len (by simp)]

/-! ## Whole messages (R76, R77) -/

theorem length_flatten_blocks {blocks : List (List Byte)} (h : ∀ b ∈ blocks, b.length = 64) :
    blocks.flatten.length = 64 * blocks.length := by
  rw [List.length_flatten, List.map_congr_left h]
  simp
  omega

/-- Blocks cut from their concatenation are compressed one after the other. -/
theorem compressBlocks_flatten (h : Digest) {blocks : List (List Byte)} (hb : ∀ b ∈ blocks, b.length = 64) :
    compressBlocks h blocks.flatten blocks.length = blocks.foldl compress h := by
  induction blocks generalizing h with
  | nil => rfl
  | cons b blocks ih =>
    obtain ⟨hhead, htail⟩ := List.forall_mem_cons.1 hb
    rw [List.flatten_cons, List.length_cons, Nat.add_comm, compressBlocks_append h (k := 1) hhead,
      compressBlocks_single h hhead, ih _ htail, List.foldl_cons]

/-- V1: the digests of the empty message and of "abc". -/
theorem sha1_vectors :
    sha1 [] = beBytes 20 0xda39a3ee5e6b4b0d3255bfef95601890afd80709 ∧
    sha1 [0x61, 0x62, 0x63] = beBytes 20 0xa9993e364706816aba3e25717850c26c9cd0d89d := by
  decide +kernel

/-- Settles O46: `SHA1` over the concatenation is the fold over the blocks, finished over the tail. -/
theorem sha1OfBlocksAndTail : Obligations.Sha1OfBlocksAndTail := by
  refine ⟨fun blocks tail hb ht => ?_, sha1_vectors⟩
  have hlen := length_flatten_blocks hb
  rw [sha1, sha1State_append hlen ht.le, compressBlocks_flatten iv hb, hlen, bitLength]

/-! ## The digest's bytes (R78) -/

/-- Settles O47: `Ser` is the bytes of the five words in order. -/
theorem digestSerialisation : Obligations.DigestSerialisation := by
  refine fun h => ⟨length_ser h, unSer_ser h, fun k hk => ?_⟩
  have word : k / 4 < [h.h0, h.h1, h.h2, h.h3, h.h4].length := by
    change k / 4 < 5
    omega
  rw [ser_eq_flatMap, getElem?_flatMap_wordBytes, List.getElem?_eq_getElem word, List.getD_eq_getElem _ _ word,
    Option.map_some]

end Sys2Proof.Machine
end

section
/-! PROOFS. The Keyed Authenticator (41_authenticator.md): the key pads, and the commands MAC_START and MAC_FINAL. The
lemma about the Host's step is for every command. -/

namespace Sys2Proof.Machine

/-! ## The key pads (R86) -/

/-- The two cases of R86 are one: past the key, the key byte counts as zero. -/
theorem getElem?_keyPad (c : Byte) (k : List Byte) {i : Nat} (h : i < 64) :
    (keyPad c k)[i]? = some (c ^^^ k.getD i 0) := by
  rw [keyPad, List.getElem?_map, List.getElem?_range h, Option.map_some]
  split
  · rfl
  · rename_i past
    simp [List.getElem?_eq_none (Nat.le_of_not_lt past)]

theorem getElem?_keyPad_past (c : Byte) {k : List Byte} {i : Nat} (hk : k.length ≤ i) (h : i < 64) :
    (keyPad c k)[i]? = some c := by
  simp [getElem?_keyPad c k h, List.getElem?_eq_none hk]

/-- Settles O51: both pads are `keyPad`, whose byte is known at each position. -/
theorem keyPadBytes : Obligations.KeyPadBytes := by
  refine fun k hk => ⟨length_ipad k, length_opad k, fun i hi => ?key, fun i hi h => ?past⟩
  case key => exact ⟨getElem?_keyPad _ k (by omega), getElem?_keyPad _ k (by omega)⟩
  case past => exact ⟨getElem?_keyPad_past _ hi h, getElem?_keyPad_past _ hi h⟩

/-- The pad of a full window, as `OPAD'(KSAVE)` is (R91). -/
theorem keyPad_of_length {c : Byte} {b : List Byte} (h : b.length = 64) : keyPad c b = b.map (c ^^^ ·) := by
  refine List.ext_getElem? fun i => ?_
  rw [List.getElem?_map]
  rcases Nat.lt_or_ge i 64 with hi | hi
  · have inWindow : i < b.length := by omega
    rw [getElem?_keyPad c b hi, List.getD_eq_getElem _ _ inWindow, List.getElem?_eq_getElem inWindow, Option.map_some]
  · rw [List.getElem?_eq_none (by simpa using hi), List.getElem?_eq_none (by omega), Option.map_none]

theorem opad_ksave (s : State) : opad s.ksave.toList = s.ksave.toList.map (0x5C ^^^ ·) :=
  keyPad_of_length s.ksave.length_toList

/-! ## The Host's step -/

/-- BUSY is checked before everything else (R117). -/
theorem exec_command_host_of_idle {s t : State} {op : Op} {n : BitVec 7} (hn : takesCount op = true ∨ n = 0)
    (ha : s.agent = .host) (idle : s.busy = false → issueCommand (cmdWord op n) s = t) :
    exec (commandInstr op n) s = .next (if s.busy then raiseError .busyWrite s else t) := by
  cases hb : s.busy
  · rw [exec_command_host op n hn ha, idle hb, if_neg Bool.false_ne_true]
  · rw [exec_command_host_busy op n hn ha hb, if_pos rfl]

theorem issueCommand_macStart {s : State} (hb : s.busy = false) :
    issueCommand (cmdWord .macStart 0) s =
      if 64 < s.keylen then raiseError .badKeylen s else acceptCommand ⟨.macStart, 0⟩ s := by
  rw [issueCommand, cmdCheck_command hb (commandOf_cmdWord_zero .macStart)]
  dsimp only
  split_ifs <;> rfl

theorem issueCommand_macFinal {s : State} (n : BitVec 7) (hb : s.busy = false) :
    issueCommand (cmdWord .macFinal n) s =
      if s.mode ≠ .mac then raiseError .badSequence s
      else if 64 < n then raiseError .badNbytes s
      else acceptCommand ⟨.macFinal, n⟩ s := by
  rw [issueCommand, cmdCheck_command hb (commandOf_cmdWord n rfl)]
  dsimp only
  split_ifs <;> rfl

/-! ## MAC_START (R90) -/

/-- The bytes MAC_START pads are those of KEY, taken back from the latch. -/
theorem take_latchedKey {s : State} (h : s.keylen ≤ 64) :
    (latchedKey s).toList.take s.keylen.toNat = keyOperand s := by
  rw [latchedKey_toList h, List.take_left' (length_keyOperand h)]

theorem macStartEffect_eq {s : State} (h : s.keylen ≤ 64) :
    macStartEffect s =
      { s with ksave := latchedKey s, h := compress iv (ipad (keyOperand s)), tlen := 0, mode := .mac } := by
  rw [macStartEffect, take_latchedKey h]

/-- Settles O35: the latch holds the key and zeros, and the inner pad is that of the latched key. -/
theorem macStartLatchesKey : Obligations.MacStartLatchesKey := by
  refine fun s => ⟨decodeCmd_cmdWord_zero .macStart, fun w hop hne => ?illegal, fun ha hk => ?engine,
    fun ha => ?host⟩
  case illegal =>
    exact decodeCmd_of_illegalWord (op := .macStart) hop (illegalWord_of_ne_cmdWord (op := .macStart) hop rfl hne)
  case engine =>
    refine ⟨_, exec_command_engine .macStart 0 ha, ?_, latchedKey_toList hk⟩
    rw [commandEffect, macStartEffect_eq hk]
    rfl
  case host => exact exec_command_host_of_idle (op := .macStart) (.inr rfl) ha issueCommand_macStart

/-! ## MAC_FINAL (R91) -/

/-- Settles O36: the completion's outer pad is KSAVE XORed with the constant, and zeros past the key change no pad. -/
theorem macFinalProducesMac : Obligations.MacFinalProducesMac := by
  refine fun s n => ⟨?word, fun w hop hrsv => ?illegal, fun ha _ => ?engine, fun k _ hksave => ?outerPad,
    fun ha => ?host⟩
  case word => exact (congrArg decodeCmd (cmdWord_eq_add .macFinal n)).symm.trans (decodeCmd_cmdWord n rfl)
  case illegal => exact decodeCmd_of_illegalWord (op := .macFinal) hop (illegalWord_of_reserved hrsv)
  case engine =>
    rw [BitVec.ofNat_toNat, ← opad_ksave]
    exact exec_command_engine .macFinal n ha
  case outerPad =>
    rw [← opad_ksave, hksave]
    exact keyPad_append_zeros 0x5C k _
  case host => exact exec_command_host_of_idle (op := .macFinal) (.inl rfl) ha (issueCommand_macFinal n)

end Sys2Proof.Machine
end

section
/-! PROOFS. The Counter-Token Generator (42_token.md): the counter field, the truncation and the code, and the command
TOKEN_GEN. -/

namespace Sys2Proof.Machine

/-! ## The counter field (R94) -/

/-- A number that fits in `n` bytes has zeros before them in any longer encoding. -/
theorem beBytes_leading_zeros {n v : Nat} (m : Nat) (h : v < 256 ^ n) :
    beBytes (m + n) v = List.replicate m 0 ++ beBytes n v := by
  induction m with
  | zero => rw [Nat.zero_add, List.replicate_zero, List.nil_append]
  | succ m ih =>
    have topByte : v / 256 ^ (m + n) = 0 :=
      Nat.div_eq_of_lt (h.trans_le (Nat.pow_le_pow_right (by decide) (Nat.le_add_left n m)))
    rw [Nat.succ_add, beBytes_succ, topByte, ih]
    rfl

/-- Widening the counter keeps its value. -/
theorem ctrField_eq_beBytes (c : Word) : ctrField c = beBytes 8 c.toNat := by
  rw [ctrField, BitVec.toNat_setWidth_of_le (by decide)]

/-- Settles O53: the widened counter fits in four bytes, so the other four are zeros. -/
theorem counterFieldBytes : Obligations.CounterFieldBytes := by
  intro c
  have fits : c.toNat < 256 ^ 4 := c.isLt
  rw [ctrField_eq_beBytes]
  exact ⟨length_beBytes 8 _, beBytes_leading_zeros 4 fits, unBE_beBytes (fits.trans (by decide))⟩

/-! ## The truncation and the code (R95, R96, R97) -/

theorem truncOffset_eq (mac : List Byte) : truncOffset mac = (mac.getD 19 0).toNat % 16 := by
  rw [truncOffset, BitVec.toNat_and]
  exact Nat.and_two_pow_sub_one_eq_mod _ 4

/-- The four bytes at the offset, without the top bit (R96). -/
theorem toNat_truncate (mac : List Byte) :
    (truncate mac).toNat = unBE (slice mac (truncOffset mac) 4) % 2 ^ 31 := by
  rw [truncate, BitVec.toNat_and, wordOfBytes, BitVec.toNat_ofNat]
  calc _ = unBE (slice mac (truncOffset mac) 4) % 2 ^ 32 % 2 ^ 31 := Nat.and_two_pow_sub_one_eq_mod _ 31
    _ = _ := Nat.mod_mod_of_dvd _ (by decide)

/-- A remainder of a word is a word. -/
theorem toNat_code (v : Word) (d : Nat) : (code v d).toNat = v.toNat % 10 ^ d := by
  rw [code, BitVec.toNat_ofNat, Nat.mod_eq_of_lt ((Nat.mod_le _ _).trans_lt v.isLt)]

/-- The greatest width removes no digit of a 31-bit number (R97). -/
theorem code_ten {v : Word} (h : v.toNat < 2 ^ 31) : code v 10 = v := by
  apply BitVec.eq_of_toNat_eq
  rw [toNat_code, Nat.mod_eq_of_lt (h.trans (by decide))]

/-- Settles O54: both masks are remainders by a power of two, and a code is a remainder by a power of ten. -/
theorem truncationAndReduction : Obligations.TruncationAndReduction := by
  refine ⟨fun mac _ => ⟨truncOffset_eq mac, ?inside, ?value, Nat.le_of_lt_succ (truncate_lt mac)⟩,
    fun v d hv _ _ => ⟨toNat_code v d, ?bound, ?ten⟩⟩
  case inside => omega
  case value => rw [toNat_truncate, truncOffset_eq, slice]
  case bound =>
    rw [toNat_code]
    exact Nat.mod_lt _ (by positivity)
  case ten =>
    rintro rfl
    exact code_ten hv

/-! ## TOKEN_GEN (R103) -/

theorem issueCommand_tokenGen {s : State} (hb : s.busy = false) :
    issueCommand (cmdWord .tokenGen 0) s =
      if 64 < s.keylen then raiseError .badKeylen s else acceptCommand ⟨.tokenGen, 0⟩ s := by
  rw [issueCommand, cmdCheck_command hb (commandOf_cmdWord_zero .tokenGen)]
  dsimp only
  split_ifs <;> rfl

/-- H holds the MAC of the counter field (R103). -/
theorem ser_tokenGenEffect_h (s : State) : ser (tokenGenEffect s).h = hmac (keyOperand s) (ctrField s.counter) :=
  ser_unSer (length_hmac _ _)

/-- TSTR holds the string of the code, and zeros (R103). -/
theorem tokenGenEffect_tstr_toList {s : State} (h : s.digits ≤ 10) :
    (tokenGenEffect s).tstr.toList = decimalString (tokenOf s).value s.digits.toNat ++
      List.replicate (12 - s.digits.toNat) 0 := by
  have width : s.digits.toNat ≤ 10 := h
  have len : (tokenOf s).str.length = s.digits.toNat := length_decimalString _ _
  have key := tokenBuffer_toList (s := (tokenOf s).str) (by omega)
  rw [len] at key
  exact key

/-- Settles O37: the completion's fields are the generator's results, and H and TSTR are read back as bytes. -/
theorem tokenGenComputesCode : Obligations.TokenGenComputesCode := by
  refine fun s => ⟨decodeCmd_cmdWord_zero .tokenGen, fun w hop hne => ?illegal, fun ha _ hdigits _ => ?engine,
    fun ha => ?host⟩
  case illegal =>
    exact decodeCmd_of_illegalWord (op := .tokenGen) hop (illegalWord_of_ne_cmdWord (op := .tokenGen) hop rfl hne)
  case engine =>
    exact ⟨_, exec_command_engine .tokenGen 0 ha, rfl, ser_tokenGenEffect_h s, tokenGenEffect_tstr_toList hdigits⟩
  case host => exact exec_command_host_of_idle (op := .tokenGen) (.inr rfl) ha issueCommand_tokenGen

end Sys2Proof.Machine
end

section
/-! PROOFS. The Host's register accesses and the command CLEAR (43_host_access.md): reads, the checks and the effect of
each write, and what is ignored. -/

namespace Sys2Proof.Machine

/-! ## Reads (R104) -/

theorem exec_rd {off : BitVec 12} (s : State) (h : off.toNat % 4 = 0) :
    exec (.rd off) s = .next { s with rdata := readValue off s } :=
  if_neg (not_not.2 (extractLsb'_low_eq_zero_iff.2 h))

theorem exec_rd_misaligned {off : BitVec 12} (s : State) (h : off.toNat % 4 ≠ 0) :
    exec (.rd off) s = .fault .busFault :=
  if_pos (mt extractLsb'_low_eq_zero_iff.1 h)

theorem exec_rd_of_readValue {off : BitVec 12} {s : State} {v : Word} (h : off.toNat % 4 = 0)
    (hv : readValue off s = v) : exec (.rd off) s = .next { s with rdata := v } := by
  rw [exec_rd s h, hv]

/-- DIGITS and LOCK do not overlap, so CFG is also their sum (R19). -/
theorem cfgWord_eq_ofNat (s : State) :
    cfgWord s = BitVec.ofNat 32 (s.digits.toNat + if s.lock then 2 ^ 31 else 0) := by
  have sum : ∀ (d : BitVec 4) (l : Bool),
      d.zeroExtend 32 ||| bitWord l <<< 31 = BitVec.ofNat 32 (d.toNat + if l then 2 ^ 31 else 0) := by decide
  exact sum s.digits s.lock

theorem readValue_tokstr (s : State) (j : Fin 3) :
    readValue (BitVec.ofNat 12 (0x02C + 4 * j.val)) s = gated s.tvalid (wordAt s.tstr.toList j.val) := by
  fin_cases j <;> rfl

theorem readValue_msg (s : State) (i : Fin 16) :
    readValue (BitVec.ofNat 12 (0x040 + 4 * i.val)) s = s.msg[i] := by
  fin_cases i <;> rfl

theorem readValue_key_window (s : State) (i : Fin 16) :
    readValue (BitVec.ofNat 12 (0x080 + 4 * i.val)) s = 0 := by
  fin_cases i <;> rfl

theorem readValue_digest (s : State) (i : Fin 5) :
    readValue (BitVec.ofNat 12 (0x0C0 + 4 * i.val)) s = gated s.dvalid (digestWord s.h i.val) := by
  fin_cases i <;> rfl

theorem readValue_hex (s : State) (j : Fin 10) :
    readValue (BitVec.ofNat 12 (0x100 + 4 * j.val)) s = gated s.dvalid (wordAt (hexBytes s.h) j.val) := by
  fin_cases j <;> rfl

/-- An offset in none of the ranges of the register map reads 0 (R32). -/
theorem readValue_unmapped {off : BitVec 12} (s : State) (h4 : off.toNat % 4 = 0)
    (h : off = 0x038 ∨ off = 0x03C ∨ (0x0D4 ≤ off ∧ off ≤ 0x0FC) ∨ 0x128 ≤ off) : readValue off s = 0 := by
  have single : ∀ r : BitVec 12, r.toNat < 0x02C → off ≠ r := by bv_omega
  have tokstr : ¬ (offTokstr ≤ off ∧ off < offTokstr + 12) := by
    change ¬ ((0x02C : BitVec 12) ≤ off ∧ off < 0x038)
    bv_omega
  have window : ¬ (windowOf off = 1 ∨ windowOf off = 2) := fun hw => by
    have := msg_key_range_of_windowOf h4 hw
    bv_omega
  have digest : ¬ (offDigest ≤ off ∧ off < offDigest + 20) := by
    change ¬ ((0x0C0 : BitVec 12) ≤ off ∧ off < 0x0D4)
    bv_omega
  have hex : ¬ (offHex ≤ off ∧ off < offHex + 40) := by
    change ¬ ((0x100 : BitVec 12) ≤ off ∧ off < 0x128)
    bv_omega
  obtain ⟨msg, key⟩ := not_or.1 window
  simp (disch := decide) only [readValue, single, tokstr, msg, key, digest, hex, if_false]

/-- Settles O23: a read returns `readValue`, which is known at each offset of the map and 0 at the rest. -/
theorem readReturnsRegisterValue : Obligations.ReadReturnsRegisterValue := by
  refine fun s => ⟨exec_rd s rfl, exec_rd s rfl, exec_rd s rfl, exec_rd_of_readValue rfl (cfgWord_eq_ofNat s),
    exec_rd s rfl, exec_rd_of_readValue rfl (BitVec.ofNat_toNat 32 s.keylen).symm, exec_rd s rfl, exec_rd s rfl,
    exec_rd s rfl, exec_rd s rfl, exec_rd s rfl, fun j => ?tokstr, fun i => ?msg, fun i => ?key, fun i => ?digest,
    fun j => ?hex, fun off h4 h => exec_rd_of_readValue h4 (readValue_unmapped s h4 h),
    fun off => exec_rd_misaligned s⟩
  case tokstr => exact exec_rd_of_readValue (by simp) (readValue_tokstr s j)
  case msg => exact exec_rd_of_readValue (by simp) (readValue_msg s i)
  case key => exact exec_rd_of_readValue (by simp) (readValue_key_window s i)
  case digest => exact exec_rd_of_readValue (by simp) (readValue_digest s i)
  case hex => exact exec_rd_of_readValue (by simp) (readValue_hex s j)

/-! ## Writes to CMD (R105, R117) -/

/-- `CmdCheck` names the commands, R117 their OP values. -/
theorem opCode_eq_iff (c : Op) :
    (opCode c = 2 ↔ c = .hashUpdate) ∧ (opCode c = 3 ↔ c = .hashFinal) ∧ (opCode c = 4 ↔ c = .macStart) ∧
    (opCode c = 5 ↔ c = .macFinal) ∧ (opCode c = 6 ↔ c = .tokenGen) := by
  cases c <;> decide

/-- Settles O25: past BUSY and the illegal words, the word is a command's, and the checks left are those of `CmdCheck`,
one branch each. -/
theorem writeCmdChecksThenAccepts : Obligations.WriteCmdChecksThenAccepts := by
  refine fun v s => ⟨issueCommand v s, rfl, ?_⟩
  obtain ⟨illegal, legal⟩ := commandWordDecoding v
  split
  next hbusy => exact issueCommand_of_busy v hbusy
  next hbusy =>
    split
    next hillegal => rw [issueCommand_of_illegal s (illegal hillegal), rejectIllegal, if_neg hbusy]
    next hillegal =>
      obtain ⟨c, hop, hc, -⟩ := legal hillegal
      simp only [issueCommand, cmdCheck, if_neg hbusy, hc, ← hop, opCode_eq_iff]
      split_ifs
      case neg => exact ⟨c, rfl, rfl⟩
      all_goals rfl

/-! ## Writes to CFG, IRQ_EN, KEYLEN and COUNTER (R106 to R109) -/

/-- Settles O26: the checks are `CfgCheck`'s, one branch each. -/
theorem writeCfgChecksThenStores : Obligations.WriteCfgChecksThenStores := by
  intro v s
  simp only [exec, execWrCfg, cfgCheck_eq]
  split_ifs <;> rfl

/-- Bits 6:0 of a value, as KEYLEN takes them (R108). -/
theorem extractLsb'_low_seven (v : Word) : v.extractLsb' 0 7 = BitVec.ofNat 7 (v.toNat % 128) := by
  apply BitVec.eq_of_toNat_eq
  simp [BitVec.extractLsb'_toNat]

/-- Settles O27: the three writes have one check, and KEYLEN takes the value modulo 128. -/
theorem writeControlRegisters : Obligations.WriteControlRegisters := by
  refine fun v s => ⟨fun hb => ?busy, fun hb => ?idle⟩
  case busy =>
    exact ⟨congrArg _ (writeUnlessBusy_of_busy _ hb), congrArg _ (writeUnlessBusy_of_busy _ hb),
      congrArg _ (writeUnlessBusy_of_busy _ hb)⟩
  case idle =>
    rw [← extractLsb'_low_seven]
    exact ⟨congrArg _ (writeUnlessBusy_of_idle _ hb), congrArg _ (writeUnlessBusy_of_idle _ hb),
      congrArg _ (writeUnlessBusy_of_idle _ hb)⟩

/-! ## Writes to MSG and KEY (R110, R111) -/

/-- Byte `4i + j` of a window in which register i was written. -/
theorem getElem?_windowBytes_setWord_self (w : Vector Word 16) (i : BitVec 4) (v : Word) {j : Nat} (hj : j < 4) :
    (windowBytes (setWord w i v))[4 * i.toNat + j]? = some (v.extractLsb' (24 - 8 * j) 8) := by
  have inWindow : 4 * i.toNat + j < 64 := by omega
  have word : (4 * i.toNat + j) / 4 = i.toNat := by omega
  have byte : (4 * i.toNat + j) % 4 = j := by omega
  rw [getElem?_windowBytes_setWord w i v inWindow, if_pos word, byte]

theorem getElem?_windowBytes_setWord_other (w : Vector Word 16) {i : BitVec 4} (v : Word) {k : Nat} (hk : k < 64)
    (h : k / 4 ≠ i.toNat) : (windowBytes (setWord w i v))[k]? = (windowBytes w)[k]? := by
  rw [getElem?_windowBytes_setWord w i v hk, if_neg h]

/-- Settles O28: both windows are written by `setWord`, whose bytes are known. -/
theorem writeMessageAndKeyWindows : Obligations.WriteMessageAndKeyWindows := by
  refine fun i v s => ⟨fun hb => ?busy, fun hb => ⟨?msg, ?key⟩⟩
  case busy => exact ⟨congrArg _ (writeUnlessBusy_of_busy _ hb), congrArg _ (writeUnlessBusy_of_busy _ hb)⟩
  case msg =>
    exact ⟨_, congrArg Host.Outcome.next (writeUnlessBusy_of_idle _ hb), rfl,
      fun _ => getElem?_windowBytes_setWord_self s.msg i v,
      fun _ => getElem?_windowBytes_setWord_other s.msg v⟩
  case key =>
    exact ⟨_, congrArg Host.Outcome.next (writeUnlessBusy_of_idle _ hb), rfl,
      fun _ => getElem?_windowBytes_setWord_self s.key i v,
      fun _ => getElem?_windowBytes_setWord_other s.key v⟩

/-! ## Ignored writes (R112) -/

theorem exec_wrIgnored {off : BitVec 12} (v : Word) (s : State) (h : off.toNat % 4 = 0) :
    exec (.wrIgnored off v) s = .next s :=
  if_neg (not_not.2 (extractLsb'_low_eq_zero_iff.2 h))

/-- The read-only registers and the unmapped offsets lie outside the writable registers (R15, R62). -/
theorem decodeBus_write_ignored {off : BitVec 12} (v : Word) (h4 : off.toNat % 4 = 0)
    (h : off = 0x000 ∨ off = 0x008 ∨ (0x01C ≤ off ∧ off ≤ 0x03C) ∨ 0x0C0 ≤ off) :
    decodeBus ⟨.write, 4, off, v⟩ = .ok (.wrIgnored off v) := by
  obtain ⟨-, -, -, -, -, -, -, -, ignored⟩ := busAccessDecoding
  refine ignored off v h4 ?_ ?_ ?_ ?_ ?_ ?_
  all_goals bv_omega

/-- Settles O29: the access decodes to WR.IGNORED, which answers the state it is given. -/
theorem ignoredWriteChangesNothing : Obligations.IgnoredWriteChangesNothing := by
  refine ⟨fun _ v s => exec_wrIgnored v s, fun s off v rest hi h4 h => ?step⟩
  case step =>
    rw [step_access hi, decode, decodeBus_write_ignored v h4 h]
    exact exec_wrIgnored v _ h4

/-! ## CLEAR (R113) -/

/-- Settles O38: its only word is 0x00000007, and it has no check but BUSY's. -/
theorem clearZeroises : Obligations.ClearZeroises := by
  refine fun s => ⟨decodeCmd_cmdWord_zero .clear, fun w hop hne => ?illegal, exec_command_engine .clear 0,
    exec_command_host_busy .clear 0 (.inr rfl), fun ha hb => ?accepted⟩
  case illegal =>
    exact decodeCmd_of_illegalWord (op := .clear) hop (illegalWord_of_ne_cmdWord (op := .clear) hop rfl hne)
  case accepted =>
    have legal : PendingLegal ⟨.clear, 0⟩ s := rfl
    exact (exec_command_host .clear 0 (.inr rfl) ha).trans
      (congrArg _ (issueCommand_of_legal hb (commandOf_cmdWord_zero .clear) legal))

end Sys2Proof.Machine
end

section
/-! PROOFS. Errors and the interrupt line (R116, R121, R122): what recording an error does, the ways out of it, that it
blocks no later access, and what raises and lowers the line. -/

namespace Sys2Proof.Machine

/-! ## Recording an error (R116) -/

/-- Settles O30, by the two cases of `raiseError`. -/
theorem raiseErrorKeepsFirstCode : Obligations.RaiseErrorKeepsFirstCode :=
  fun _ _ => ⟨raiseError_of_clear, raiseError_of_err⟩

/-! ## The ways out of an error (R121) -/

/-- The Host has no way out of an error: it can record a further one, which changes nothing, or leave ERR alone. -/
theorem exec_host_keeps_error {i : Instr} {s t : State} (ha : s.agent = .host) (he : s.err = true)
    (h : exec i s = .next t) : t.err = true ∧ t.errcode = s.errcode := by
  obtain ⟨c, -, rfl⟩ | ⟨p, -, -, rfl⟩ | ⟨v, rfl⟩ | rfl | ⟨-, -, d, l, -, -, rfl⟩ | ⟨-, b, rfl⟩ | ⟨-, n, rfl⟩ |
    ⟨-, c, rfl⟩ | ⟨-, m, rfl⟩ | ⟨-, k, rfl⟩ := exec_host_cases ha h
  case inl => rw [raiseError_of_err he]; exact ⟨he, rfl⟩
  all_goals exact ⟨he, rfl⟩

theorem commandEffect_keeps_error {c : Op} (hc : c ≠ .clear) (n : BitVec 7) (s : State) :
    (commandEffect c n s).err = s.err ∧ (commandEffect c n s).errcode = s.errcode := by
  cases c
  case clear => exact absurd rfl hc
  all_goals exact ⟨rfl, rfl⟩

/-- A step leaves an error alone, or it is a reset or the completion of CLEAR. -/
theorem step_error_cases {s t : State} (he : s.err = true) (h : step s = .next t) :
    (t.err = true ∧ t.errcode = s.errcode) ∨
    (t.err = false ∧ t.errcode = .none ∧
      ((∃ rest, s.inputs = .reset :: rest) ∨ (∃ p, s.pend = some p ∧ p.op = .clear ∧ t.pend = none))) := by
  obtain ⟨rest, i, hx, -⟩ | ⟨rest, p, hp, rfl⟩ | ⟨rest, hi, rfl⟩ | ⟨rest, rfl⟩ := step_cases h
  · exact .inl (exec_host_keeps_error (s := { s with inputs := rest, agent := .host }) rfl he hx)
  · by_cases hc : p.op = .clear
    · rw [hc]
      exact .inr ⟨rfl, rfl, .inr ⟨p, hp, hc, rfl⟩⟩
    · obtain ⟨err, code⟩ := commandEffect_keeps_error hc p.nbytes { s with inputs := rest, agent := .engine }
      exact .inl ⟨err.trans he, code⟩
  · exact .inr ⟨rfl, rfl, .inl ⟨rest, hi⟩⟩
  · exact .inl ⟨he, rfl⟩

/-! ## An error blocks no later access (R121) -/

/-- The two states agree in everything but ERR and ERRCODE. -/
def AgreeButError (s t : State) : Prop := t = { s with err := t.err, errcode := t.errcode }

theorem agreeButError_recorded (c : ErrCode) (s : State) : AgreeButError s { s with err := true, errcode := c } := rfl

theorem AgreeButError.raiseError {s t : State} (c : ErrCode) (h : AgreeButError s t) :
    AgreeButError (raiseError c s) (raiseError c t) := by
  rw [h]; rfl

theorem AgreeButError.finishCommand {s t : State} (h : AgreeButError s t) :
    AgreeButError (finishCommand s) (finishCommand t) := by
  rw [h]; rfl

/-- The checks of a write to CMD do not look at the error (R117). -/
theorem AgreeButError.issueCommand {s t : State} (v : Word) (h : AgreeButError s t) :
    AgreeButError (issueCommand v s) (issueCommand v t) := by
  have check : cmdCheck v t = cmdCheck v s := by rw [h]; rfl
  unfold Machine.issueCommand
  rw [check]
  cases cmdCheck v s with
  | error e => exact h.raiseError e
  | ok p => rw [h]; rfl

theorem AgreeButError.rejectIllegal {s t : State} (h : AgreeButError s t) :
    AgreeButError (rejectIllegal s) (rejectIllegal t) := by
  rw [h]; rfl

theorem AgreeButError.writeUnlessBusy {s t u w : State} (h : AgreeButError s t) (written : AgreeButError u w) :
    AgreeButError (writeUnlessBusy s u) (writeUnlessBusy t w) := by
  have busy : t.busy = s.busy := by rw [h]; rfl
  cases hb : s.busy with
  | true =>
    rw [writeUnlessBusy_of_busy u hb, writeUnlessBusy_of_busy w (busy.trans hb)]
    exact h.raiseError .busyWrite
  | false => rwa [writeUnlessBusy_of_idle u hb, writeUnlessBusy_of_idle w (busy.trans hb)]

/-- No completion effect looks at the error. -/
theorem AgreeButError.commandEffect {s t : State} (c : Op) (n : BitVec 7) (h : AgreeButError s t) :
    AgreeButError (commandEffect c n s) (commandEffect c n t) := by
  rw [h]; cases c <;> rfl

theorem AgreeButError.next {s t u : State} (h : AgreeButError s t) (hx : (.next s : Result) = .next u) :
    ∃ w, (.next t : Result) = .next w ∧ AgreeButError u w := by
  cases hx
  exact ⟨t, rfl, h⟩

/-- Both steps of a command: the Host's checks and acceptance, and the Engine's completion. -/
theorem AgreeButError.runCommand {s t u : State} (c : Op) (n : BitVec 7) (h : AgreeButError s t)
    (hx : runCommand c n (Machine.commandEffect c n) s = .next u) :
    ∃ w, runCommand c n (Machine.commandEffect c n) t = .next w ∧ AgreeButError u w := by
  have agent : t.agent = s.agent := by rw [h]
  cases ha : s.agent with
  | host =>
    rw [runCommand_host c n _ ha] at hx
    rw [runCommand_host c n _ (agent.trans ha)]
    exact (h.issueCommand _).next hx
  | engine =>
    rw [runCommand_engine c n _ ha] at hx
    rw [runCommand_engine c n _ (agent.trans ha)]
    exact (h.commandEffect c n).finishCommand.next hx

/-- The checks of a write to CFG do not look at the error (R118). -/
theorem AgreeButError.execWrCfg {s t u : State} (v : Word) (h : AgreeButError s t)
    (hx : execWrCfg v s = .next u) : ∃ w, execWrCfg v t = .next w ∧ AgreeButError u w := by
  have check : cfgCheck v t = cfgCheck v s := by rw [h]; rfl
  unfold Machine.execWrCfg at hx ⊢
  rw [check]
  cases hc : cfgCheck v s with
  | some e => rw [hc] at hx; exact (h.raiseError e).next hx
  | none => rw [hc] at hx; exact AgreeButError.next (by rw [h]; rfl) hx

theorem AgreeButError.execWrIgnored {s t u : State} (off : BitVec 12) (v : Word) (h : AgreeButError s t)
    (hx : execWrIgnored off v s = .next u) : ∃ w, execWrIgnored off v t = .next w ∧ AgreeButError u w := by
  unfold Machine.execWrIgnored at hx ⊢
  split at hx
  case isTrue => cases hx
  case isFalse aligned => rw [if_neg aligned]; exact h.next hx

/-- Only a read looks at the error: it can return STATUS. -/
theorem AgreeButError.exec {i : Instr} {s t u : State} (h : AgreeButError s t) (hi : ∀ off, i ≠ .rd off)
    (hx : exec i s = .next u) : ∃ w, exec i t = .next w ∧ AgreeButError u w := by
  cases i
  case hashInit => exact h.runCommand .hashInit 0 hx
  case hashUpdate n => exact h.runCommand .hashUpdate n hx
  case hashFinal n => exact h.runCommand .hashFinal n hx
  case macStart => exact h.runCommand .macStart 0 hx
  case macFinal n => exact h.runCommand .macFinal n hx
  case tokenGen => exact h.runCommand .tokenGen 0 hx
  case clear => exact h.runCommand .clear 0 hx
  case illegalOp0 => exact h.rejectIllegal.next hx
  case illegalOp8To15 => exact h.rejectIllegal.next hx
  case illegalReserved => exact h.rejectIllegal.next hx
  case rd off => exact absurd rfl (hi off)
  case wrCmd v => exact (h.issueCommand v).next hx
  case wrCfg v => exact h.execWrCfg v hx
  case wrIrqEn v => exact (h.writeUnlessBusy (by rw [h]; rfl)).next hx
  case wrKeylen v => exact (h.writeUnlessBusy (by rw [h]; rfl)).next hx
  case wrCounter v => exact (h.writeUnlessBusy (by rw [h]; rfl)).next hx
  case wrMsg k v => exact (h.writeUnlessBusy (by rw [h]; rfl)).next hx
  case wrKey k v => exact (h.writeUnlessBusy (by rw [h]; rfl)).next hx
  case wrIgnored off v => exact h.execWrIgnored off v hx

/-- Settles O19: the cases of a step, `raiseError` with an error recorded, and that no instruction but a read looks at
the error. -/
theorem errorReturnsOnlyByClearOrReset : Obligations.ErrorReturnsOnlyByClearOrReset :=
  ⟨fun _ _ => step_error_cases, fun _ _ => raiseError_of_err,
    fun _ s _ c hi hx => (agreeButError_recorded c s).exec hi hx⟩

/-! ## The interrupt line (R122) -/

theorem irq_iff (s : State) : irq s = true ↔ s.irqEn = true ∧ (s.done = true ∨ s.err = true) := by
  simp [irq]

theorem irq_of_disabled {s : State} (h : s.irqEn = false) : irq s = false := by simp [irq, h]

theorem irq_acceptCommand (p : Pending) (s : State) : irq (acceptCommand p s) = (s.irqEn && s.err) := by
  simp [irq]

theorem irq_finishCommand (s : State) : irq (finishCommand s) = s.irqEn := by simp [irq]

theorem irq_raiseError (c : ErrCode) (s : State) : irq (raiseError c s) = s.irqEn := by simp [irq]

/-- CLEAR lowers ERR and leaves EN and DONE as they are. -/
theorem irq_clearEffect (s : State) : irq (clearEffect s) = (s.irqEn && s.done) := by
  simp [irq, clearEffect]

theorem exec_wrIrqEn_of_idle {s : State} (v : Word) (h : s.busy = false) :
    exec (.wrIrqEn v) s = .next { s with irqEn := v.getLsbD 0 } :=
  congrArg _ (writeUnlessBusy_of_idle _ h)

/-- Settles O31: the line's formula at the fields each operation leaves. -/
theorem interruptLine : Obligations.InterruptLine :=
  ⟨irq_iff, irq_acceptCommand, irq_finishCommand, irq_clearEffect, irq_raiseError,
    fun v _ idle disabled => ⟨_, exec_wrIrqEn_of_idle v idle, irq_of_disabled disabled⟩⟩

end Sys2Proof.Machine
end

section
/-! PROOFS. The encoder and the decoder are each other's inverse (30_encoding.md), and the illegal words: which row each
belongs to and what it does. -/

namespace Sys2Proof

/-! ## Illegal words (R63, R114) -/

theorem decodeCmd_op_zero {w : Word} (h : fieldOp w = 0) : decodeCmd w = .illegalOp0 w := by
  rw [decodeCmd_of_none (commandOf_eq_none_iff_illegalWord.2 (.inl h)), if_pos h]

theorem decodeCmd_op_high {w : Word} (h : 8 ≤ fieldOp w) : decodeCmd w = .illegalOp8To15 w := by
  have nonzero : fieldOp w ≠ 0 := by bv_omega
  rw [decodeCmd_of_none (commandOf_eq_none_iff_illegalWord.2 (.inr (.inl h))), if_neg nonzero, if_pos h]

theorem decodeCmd_op_low {w : Word} (hop : fieldOp w ≠ 0 ∧ fieldOp w < 8) (h : IllegalWord w) :
    decodeCmd w = .illegalReserved w := by
  rw [decodeCmd_of_none (commandOf_eq_none_iff_illegalWord.2 h), if_neg hop.1, if_neg (BitVec.not_le.2 hop.2)]

/-- Among the commands, the table names those without a count, R64 those with one. -/
theorem takesNoCount_iff {c : BitVec 4} (h : c ≠ 0 ∧ c < 8) :
    takesNoCount c = true ↔ c ≠ 2 ∧ c ≠ 3 ∧ c ≠ 5 := by
  revert c
  decide

/-- A term of the third illegal row is an illegal word whose OP is a command's. -/
theorem wf_illegalReserved_iff {w : Word} :
    (Instr.illegalReserved w).wf = true ↔ (fieldOp w ≠ 0 ∧ fieldOp w < 8) ∧ IllegalWord w := by
  have fields : (Instr.illegalReserved w).wf = true ↔ (fieldOp w ≠ 0 ∧ fieldOp w < 8) ∧
      (fieldRsv0 w ≠ 0 ∨ fieldRsv1 w ≠ 0 ∨ (takesNoCount (fieldOp w) = true ∧ fieldNbytes w ≠ 0)) := by
    simp [Instr.wf, fieldOp, fieldRsv0, fieldRsv1, fieldNbytes, or_assoc]
  rw [fields]
  refine and_congr_right fun hop => ?_
  rw [IllegalWord, or_iff_right hop.1, or_iff_right (BitVec.not_le.2 hop.2), takesNoCount_iff hop, and_assoc, and_assoc]

/-! ## Command words -/

@[simp] theorem wf_commandInstr (c : Op) (n : BitVec 7) : (commandInstr c n).wf = true := by cases c <;> rfl

theorem encode_commandInstr {c : Op} {n : BitVec 7} (h : takesCount c = false → n = 0) :
    encode (commandInstr c n) = .cmd (cmdWord c n) := by
  cases c
  case hashUpdate => rfl
  case hashFinal => rfl
  case macFinal => rfl
  all_goals rw [h rfl]; rfl

/-- Every word is a well-formed instruction, written as that word. -/
theorem encode_decodeCmd (w : Word) : (decodeCmd w).wf = true ∧ encode (decodeCmd w) = .cmd w := by
  cases hc : commandOf w with
  | some p =>
    obtain ⟨-, -, -, -, count⟩ := commandOf_eq_some hc
    rw [decodeCmd_of_some hc]
    exact ⟨wf_commandInstr _ _, by rw [encode_commandInstr count, cmdWord_of_commandOf hc]⟩
  | none =>
    have illegal := commandOf_eq_none_iff_illegalWord.1 hc
    by_cases zero : fieldOp w = 0
    · rw [decodeCmd_op_zero zero]
      exact ⟨beq_iff_eq.2 zero, rfl⟩
    by_cases high : 8 ≤ fieldOp w
    · rw [decodeCmd_op_high high]
      exact ⟨decide_eq_true high, rfl⟩
    have low : fieldOp w ≠ 0 ∧ fieldOp w < 8 := ⟨zero, BitVec.not_le.1 high⟩
    rw [decodeCmd_op_low low illegal]
    exact ⟨wf_illegalReserved_iff.2 ⟨low, illegal⟩, rfl⟩

/-! ## Bus accesses -/

theorem aligned_iff {off : BitVec 12} : aligned off = true ↔ off.toNat % 4 = 0 := by
  rw [aligned, beq_iff_eq]
  exact extractLsb'_low_eq_zero_iff

/-- The writable offsets are those `decodeWrite` looks for (R62). -/
theorem writable_eq_false_iff {off : BitVec 12} :
    writable off = false ↔ off ≠ offCmd ∧ off ≠ offCfg ∧ off ≠ offIrqEn ∧ off ≠ offKeylen ∧ off ≠ offCounter ∧
      windowOf off ≠ 1 ∧ windowOf off ≠ 2 := by
  simp [writable, offCmd, offCfg, offIrqEn, offKeylen, offCounter, windowOf, and_assoc]

/-- An access that decodes has 4 bytes at a multiple of 4, and is the read or the write there. -/
theorem decodeBus_eq_ok {b : BusAccess} {i : Instr} (h : decodeBus b = .ok i) :
    b.size = 4 ∧ b.off.toNat % 4 = 0 ∧
      ((b.dir = .read ∧ i = .rd b.off) ∨ (b.dir = .write ∧ i = decodeWrite b.off b.data)) := by
  unfold decodeBus at h
  split_ifs at h with size low
  refine ⟨not_not.1 size, extractLsb'_low_eq_zero_iff.1 (not_not.1 low), ?_⟩
  cases hd : b.dir <;> rw [hd] at h <;> cases h <;> simp

theorem decodeBus_error {b : BusAccess} (h : b.size ≠ 4 ∨ b.off.toNat % 4 ≠ 0) : ∃ e, decodeBus b = .error e := by
  cases hd : decodeBus b with
  | error e => exact ⟨e, rfl⟩
  | ok i =>
    obtain ⟨size, low, -⟩ := decodeBus_eq_ok hd
    omega

theorem exists_decodeBus {b : BusAccess} (hs : b.size = 4) (h : b.off.toNat % 4 = 0) : ∃ i, decodeBus b = .ok i := by
  obtain ⟨dir, size, off, v⟩ := b
  obtain rfl : size = 4 := hs
  cases dir
  case read => exact ⟨_, decodeBus_read v h⟩
  case write => exact ⟨_, decodeBus_write v h⟩

/-- A multiple of 4 is its window's offset and its register's number in the window. -/
theorem windowOffset_windowIndex {off : BitVec 12} (h4 : off.toNat % 4 = 0) :
    (windowOf off = 1 → windowOffset offMsg (windowIndex off) = off) ∧
    (windowOf off = 2 → windowOffset offKey (windowIndex off) = off) := by
  have index : (windowIndex off).toNat = off.toNat / 4 % 16 := by
    simp [windowIndex, BitVec.extractLsb'_toNat, Nat.shiftRight_eq_div_pow]
  obtain ⟨msg, key⟩ := ofNat_eq_windowOffset (windowIndex off)
  constructor <;> intro hw <;> have window := toNat_windowOf off <;> rw [hw] at window
  · rw [← msg, index]
    apply BitVec.eq_of_toNat_eq
    simp at window ⊢
    omega
  · rw [← key, index]
    apply BitVec.eq_of_toNat_eq
    simp at window ⊢
    omega

/-- The write at an offset is well formed and is written at that offset. -/
theorem encode_decodeWrite {off : BitVec 12} (v : Word) (h4 : off.toNat % 4 = 0) :
    (decodeWrite off v).wf = true ∧ encode (decodeWrite off v) = busWrite off v := by
  obtain ⟨msg, key⟩ := windowOffset_windowIndex h4
  unfold decodeWrite
  split_ifs with hcmd hcfg hirq hkeylen hcounter hmsg hkey
  · exact ⟨rfl, by rw [hcmd]; rfl⟩
  · exact ⟨rfl, by rw [hcfg]; rfl⟩
  · exact ⟨rfl, by rw [hirq]; rfl⟩
  · exact ⟨rfl, by rw [hkeylen]; rfl⟩
  · exact ⟨rfl, by rw [hcounter]; rfl⟩
  · exact ⟨rfl, by rw [encode, msg hmsg]⟩
  · exact ⟨rfl, by rw [encode, key hkey]⟩
  · have readOnly := writable_eq_false_iff.2 ⟨hcmd, hcfg, hirq, hkeylen, hcounter, hmsg, hkey⟩
    exact ⟨by rw [Instr.wf, aligned_iff.2 h4, readOnly]; rfl, rfl⟩

theorem encode_decodeBus {b : BusAccess} {i : Instr} (h : decodeBus b = .ok i) :
    i.wf = true ∧ encode i = .bus (if b.dir = .read then { b with data := 0 } else b) := by
  obtain ⟨hs, h4, ⟨hd, rfl⟩ | ⟨hd, rfl⟩⟩ := decodeBus_eq_ok h
  · refine ⟨aligned_iff.2 h4, ?_⟩
    rw [encode, if_pos hd, busRead, ← hs, ← hd]
  · obtain ⟨wf, enc⟩ := encode_decodeWrite b.data h4
    refine ⟨wf, ?_⟩
    rw [enc, if_neg (by simp [hd]), busWrite, ← hs, ← hd]

/-- What decodes is well formed, in either format. -/
theorem wf_of_decode {a : Access} {i : Instr} (h : decode a = .ok i) : i.wf = true := by
  cases a with
  | cmd w => cases h; exact (encode_decodeCmd w).1
  | bus b => exact (encode_decodeBus h).1

/-! ## The round trips -/

/-- Settles O1: a command is read back from its word, an illegal word is of its row, and an access is of its offset. -/
theorem decodeEncodeRoundTrip : Obligations.DecodeEncodeRoundTrip := by
  intro i hwf
  cases i
  case hashInit => exact congrArg Except.ok (decodeCmd_cmdWord_zero .hashInit)
  case hashUpdate n => exact congrArg Except.ok (decodeCmd_cmdWord n rfl)
  case hashFinal n => exact congrArg Except.ok (decodeCmd_cmdWord n rfl)
  case macStart => exact congrArg Except.ok (decodeCmd_cmdWord_zero .macStart)
  case macFinal n => exact congrArg Except.ok (decodeCmd_cmdWord n rfl)
  case tokenGen => exact congrArg Except.ok (decodeCmd_cmdWord_zero .tokenGen)
  case clear => exact congrArg Except.ok (decodeCmd_cmdWord_zero .clear)
  case illegalOp0 w => exact congrArg Except.ok (decodeCmd_op_zero (beq_iff_eq.1 hwf))
  case illegalOp8To15 w => exact congrArg Except.ok (decodeCmd_op_high (of_decide_eq_true hwf))
  case illegalReserved w =>
    obtain ⟨hop, illegal⟩ := wf_illegalReserved_iff.1 hwf
    exact congrArg Except.ok (decodeCmd_op_low hop illegal)
  case rd off => exact decodeBus_read 0 (aligned_iff.1 hwf)
  case wrCmd v => exact decode_write_offCmd v
  case wrCfg v => exact decode_write_offCfg v
  case wrIrqEn v => exact decode_write_offIrqEn v
  case wrKeylen v => exact decode_write_offKeylen v
  case wrCounter v => exact decode_write_offCounter v
  case wrMsg i v => exact decode_write_offMsg i v
  case wrKey i v => exact decode_write_offKey i v
  case wrIgnored off v =>
    obtain ⟨h4, readOnly⟩ := (Bool.and_eq_true _ _).mp hwf
    obtain ⟨hcmd, hcfg, hirq, hkeylen, hcounter, hmsg, hkey⟩ :=
      writable_eq_false_iff.1 ((Bool.not_eq_true' _).mp readOnly)
    exact (decodeBus_write v (aligned_iff.1 h4)).trans
      (congrArg _ (decodeWrite_ignored v hcmd hcfg hirq hkeylen hcounter hmsg hkey))

/-- Settles O2: words and bus accesses, each by its lemma. -/
theorem encodeDecodeRoundTrip : Obligations.EncodeDecodeRoundTrip :=
  ⟨encode_decodeCmd, fun _ _ => encode_decodeBus⟩

/-- Settles O4: closed instances of the decoder. -/
theorem sampleWordsDecode : Obligations.SampleWordsDecode := by
  unfold Obligations.SampleWordsDecode
  decide

end Sys2Proof

namespace Sys2Proof.Machine

/-! ## What a command word does -/

/-- Settles O39: the row of each illegal word, and the one meaning of the three rows. -/
theorem illegalWordRecordsError : Obligations.IllegalWordRecordsError := by
  refine ⟨fun w => decodeCmd_op_zero, fun w => decodeCmd_op_high, fun w hzero hlow hfield => ?reserved,
    fun w s i hi => ?error⟩
  case reserved =>
    have noCount : ∀ c : BitVec 4, c = 1 ∨ c = 4 ∨ c = 6 ∨ c = 7 → c ≠ 2 ∧ c ≠ 3 ∧ c ≠ 5 := by decide
    refine decodeCmd_op_low ⟨hzero, hlow⟩ (.inr (.inr (hfield.imp_right (.imp_right fun ⟨hn, hop⟩ => ?_))))
    obtain ⟨h2, h3, h5⟩ := noCount _ hop
    exact ⟨h2, h3, h5, hn⟩
  case error => rcases hi with rfl | rfl | rfl <;> rfl

/-- An illegal word is rejected, whichever row it belongs to (R114). -/
theorem exec_decodeCmd_of_illegal {w : Word} (s : State) (h : commandOf w = none) :
    exec (decodeCmd w) s = .next (rejectIllegal s) := by
  rw [decodeCmd_of_none h]
  split_ifs <;> rfl

/-- Settles O14: a legal word is issued as its command, and an illegal word is rejected, either way. -/
theorem commandIsWriteToCmd : Obligations.CommandIsWriteToCmd := by
  intro w s ha
  change exec (decodeCmd w) s = .next (issueCommand w s)
  cases hc : commandOf w with
  | none => rw [exec_decodeCmd_of_illegal s hc, issueCommand_of_illegal s hc]
  | some p =>
    obtain ⟨-, -, -, -, count⟩ := commandOf_eq_some hc
    have countOrZero : takesCount p.1 = true ∨ p.2 = 0 := (Bool.eq_false_or_eq_true _).imp_right count
    rw [decodeCmd_of_some hc, exec_command_host _ _ countOrZero ha, cmdWord_of_commandOf hc]

end Sys2Proof.Machine
end

section
/-! PROOFS. The invariant of the block: it does not look at the environment, the state after reset has it, and the
Host's instructions, the completions and a reset keep it. -/

namespace Sys2Proof.Machine

/-! ## What the invariant says of a pending command -/

/-- The agent, the value returned and the list of events are no part of the invariant. -/
theorem Inv.environment {s : State} (h : Inv s) (a : Agent) (v : Word) (l : List Event) :
    Inv { s with agent := a, rdata := v, inputs := l } := { h with }

/-- A result is valid only when the last command has completed. -/
theorem Inv.dvalid_of_busy {s : State} (h : Inv s) (hb : s.busy = true) : s.dvalid = false := by
  by_contra valid
  have done := h.dvalid_done (Bool.eq_true_of_not_eq_false valid)
  rw [h.busy_not_done hb] at done
  cases done

theorem Inv.tvalid_of_dvalid {s : State} (h : Inv s) (hd : s.dvalid = false) : s.tvalid = false := by
  by_contra valid
  have dvalid := h.tvalid_dvalid (Bool.eq_true_of_not_eq_false valid)
  rw [hd] at dvalid
  cases dvalid

/-! ## The Host's instructions -/

/-- The code kept is the first error's, or the new one: neither is NONE. -/
theorem Inv.raiseError {s : State} {c : ErrCode} (h : Inv s) (hc : c ≠ .none) : Inv (raiseError c s) :=
  { h with
    errcode_none := by
      cases he : s.err with
      | true =>
        have recorded : s.errcode ≠ .none := fun hnone => by simp [h.errcode_none.1 hnone] at he
        simp [he, recorded]
      | false => simp [he, hc] }

theorem Inv.acceptCommand {s : State} {p : Pending} (h : Inv s) (hl : PendingLegal p s) :
    Inv (acceptCommand p s) :=
  { h with
    busy_not_done := fun _ => rfl
    dvalid_done := nofun
    dvalid_idle := nofun
    tvalid_dvalid := nofun
    pend_legal := by
      rintro q hq
      obtain rfl : p = q := Option.some_inj.1 hq
      exact hl }

/-- While nothing is pending, KEYLEN may take any value. -/
theorem Inv.keylen {s : State} (h : Inv s) (hb : s.busy = false) (n : BitVec 7) : Inv { s with keylen := n } :=
  { h with
    pend_legal := fun p hp => by
      have idle : s.pend = none := (not_busy_iff s).1 hb
      rw [idle] at hp
      cases hp }

/-- The Host's instructions keep the invariant, by the cases of what they can do. -/
theorem Inv.exec_host {i : Instr} {s t : State} (h : Inv s) (ha : s.agent = .host) (hx : exec i s = .next t) :
    Inv t := by
  obtain ⟨c, hc, rfl⟩ | ⟨p, -, hl, rfl⟩ | ⟨v, rfl⟩ | rfl | ⟨-, -, d, l, h1, h10, rfl⟩ | ⟨-, b, rfl⟩ |
    ⟨hb, n, rfl⟩ | ⟨-, c, rfl⟩ | ⟨-, m, rfl⟩ | ⟨-, k, rfl⟩ := exec_host_cases ha hx
  · exact h.raiseError hc
  · exact h.acceptCommand hl
  · exact h.environment s.agent v s.inputs
  · exact h
  · exact { h with digits_legal := ⟨h1, h10⟩ }
  · exact { h with }
  · exact h.keylen hb n
  · exact { h with }
  · exact { h with }
  · exact { h with }

/-! ## Reset -/

/-- Settles O12: every register is zero, but DIGITS, which is 6. -/
theorem resetHasInvariant : Obligations.ResetHasInvariant where
  errcode_none := by decide
  digits_legal := by decide
  busy_not_done := nofun
  dvalid_done := nofun
  dvalid_idle := nofun
  tvalid_dvalid := nofun
  ksave_zero := fun _ => rfl
  truncv_top := rfl
  tokenv_small := by decide
  tstr_digits := fun _ hx => .inl (List.eq_of_mem_replicate (n := 12) hx)
  pend_legal := nofun

theorem inv_resetBlock (s : State) : Inv (resetBlock s) :=
  resetHasInvariant.environment s.agent s.rdata s.inputs

/-! ## The completions -/

/-- What a completion must leave, besides ending: the end itself clears BUSY and sets DONE, so the clauses of the
invariant about them hold of every finished command. -/
structure CompletedInv (s : State) : Prop where
  errcode_none : s.errcode = .none ↔ s.err = false
  digits_legal : 1 ≤ s.digits ∧ s.digits ≤ 10
  dvalid_idle : s.dvalid = true → s.mode = .idle
  tvalid_dvalid : s.tvalid = true → s.dvalid = true
  ksave_zero : s.mode ≠ .mac → s.ksave = Vector.replicate 64 0
  truncv_top : s.truncv.getLsbD 31 = false
  tokenv_small : s.tokenv.toNat < 2 ^ 31
  tstr_digits : ∀ x ∈ s.tstr.toList, x = 0 ∨ (0x30 ≤ x ∧ x ≤ 0x39)

theorem CompletedInv.finishCommand {s : State} (h : CompletedInv s) : Inv (finishCommand s) :=
  { h with
    busy_not_done := nofun
    dvalid_done := fun _ => rfl
    pend_legal := nofun }

theorem Inv.completed {s : State} (h : Inv s) : CompletedInv s := { h with }

/-- With no result valid, nothing is asked of MODE but that KSAVE be zero outside a keyed stream. -/
theorem Inv.completed_of_invalid {s t : State} (h : Inv s) (hd : s.dvalid = false)
    (ht : t = { s with mode := t.mode, h := t.h, tlen := t.tlen, ksave := t.ksave })
    (hk : t.mode ≠ .mac → t.ksave = Vector.replicate 64 0) : CompletedInv t := by
  rw [ht]
  exact { h.completed with
    dvalid_idle := fun valid => absurd (hd.symm.trans valid) Bool.false_ne_true
    ksave_zero := hk }

/-- A final command makes the digest valid and closes the stream. -/
theorem Inv.completed_of_final {s t : State} (h : Inv s)
    (ht : t = { s with mode := .idle, h := t.h, tlen := t.tlen, ksave := t.ksave, dvalid := true })
    (hk : t.ksave = Vector.replicate 64 0) : CompletedInv t := by
  rw [ht]
  exact { h.completed with
    dvalid_idle := fun _ => rfl
    tvalid_dvalid := fun _ => rfl
    ksave_zero := fun _ => hk }

/-- The token results are in range: the truncation has 31 bits, the code is no larger, and TSTR holds its digits. -/
theorem Inv.completed_tokenGen {s : State} (h : Inv s) : CompletedInv (tokenGenEffect s) :=
  { h.completed with
    dvalid_idle := fun _ => rfl
    tvalid_dvalid := fun _ => rfl
    ksave_zero := fun _ => rfl
    truncv_top := truncate_msb _
    tokenv_small := (code_le _ _).trans_lt (truncate_lt _)
    tstr_digits := fun x hx => by
      rw [tokenGenEffect_tstr_toList h.digits_legal.2] at hx
      rcases List.mem_append.1 hx with hx | hx
      · exact .inr (decimalString_digit hx)
      · exact .inl (List.eq_of_mem_replicate hx) }

theorem Inv.completed_clear {s : State} (h : Inv s) : CompletedInv (clearEffect s) :=
  { h.completed with
    errcode_none := iff_of_true rfl rfl
    dvalid_idle := fun _ => rfl
    ksave_zero := fun _ => rfl
    truncv_top := BitVec.getLsbD_zero
    tokenv_small := Nat.two_pow_pos 31
    tstr_digits := fun _ hx => .inl (List.eq_of_mem_replicate (n := 12) hx) }

/-- The completion of a pending command keeps the invariant. -/
theorem Inv.complete {s : State} {p : Pending} (h : Inv s) (hp : s.pend = some p) :
    Inv (finishCommand (commandEffect p.op p.nbytes s)) := by
  have invalid : s.dvalid = false := h.dvalid_of_busy (busy_of_pend hp)
  have legal := h.pend_legal p hp
  apply CompletedInv.finishCommand
  obtain ⟨op, n⟩ := p
  cases op
  case hashInit => exact h.completed_of_invalid invalid rfl fun _ => rfl
  case hashUpdate => exact h.completed_of_invalid invalid rfl h.ksave_zero
  case hashFinal =>
    obtain ⟨-, hmode⟩ := legal
    have keyless : s.mode ≠ .mac := by simp [hmode]
    exact h.completed_of_final rfl (h.ksave_zero keyless)
  case macStart => exact h.completed_of_invalid invalid rfl fun outside => absurd rfl outside
  case macFinal => exact h.completed_of_final rfl rfl
  case tokenGen => exact h.completed_tokenGen
  case clear => exact h.completed_clear

/-- Settles O11, by the cases of a step. -/
theorem stepKeepsInvariant : Obligations.StepKeepsInvariant := by
  intro s t h hs
  obtain ⟨rest, i, hx, -⟩ | ⟨rest, p, hp, rfl⟩ | ⟨rest, -, rfl⟩ | ⟨rest, rfl⟩ := step_cases hs
  · exact (h.environment .host s.rdata rest).exec_host rfl hx
  · exact (h.environment .engine s.rdata rest).complete hp
  · exact inv_resetBlock _
  · exact h.environment s.agent s.rdata rest

/-! ## Hidden intermediate values (R123, R133) -/

/-- With a stream open or a command pending neither result is valid. -/
theorem Inv.results_invalid {s : State} (h : Inv s) (hidden : s.mode ≠ .idle ∨ s.busy = true) :
    s.dvalid = false ∧ s.tvalid = false := by
  have dvalid : s.dvalid = false := by
    rcases hidden with stream | busy
    · exact Bool.eq_false_iff.2 fun valid => stream (h.dvalid_idle valid)
    · exact h.dvalid_of_busy busy
  exact ⟨dvalid, h.tvalid_of_dvalid dvalid⟩

/-- An offset of a run of registers is that of one of them. -/
theorem exists_register {off base : BitVec 12} {n : Nat} (h4 : off.toNat % 4 = 0) (hb : base.toNat % 4 = 0)
    (hlo : base.toNat ≤ off.toNat) (hhi : off.toNat < base.toNat + 4 * n) :
    ∃ j : Fin n, off = BitVec.ofNat 12 (base.toNat + 4 * j.val) := by
  refine ⟨⟨(off.toNat - base.toNat) / 4, by omega⟩, ?_⟩
  have place : base.toNat + 4 * ((off.toNat - base.toNat) / 4) = off.toNat := by omega
  rw [place, BitVec.ofNat_toNat, BitVec.setWidth_eq]

theorem readValue_result_invalid {s : State} {off : BitVec 12} (hd : s.dvalid = false) (ht : s.tvalid = false)
    (h4 : off.toNat % 4 = 0)
    (h : (0x024 ≤ off ∧ off ≤ 0x034) ∨ (0x0C0 ≤ off ∧ off ≤ 0x0D0) ∨ (0x100 ≤ off ∧ off ≤ 0x124)) :
    readValue off s = 0 := by
  rcases h with ⟨hlo, hhi⟩ | ⟨hlo, hhi⟩ | ⟨hlo, hhi⟩
  · have split : off = offTrunc ∨ off = offToken ∨ 0x02C ≤ off.toNat := by
      simp only [offTrunc, offToken]
      bv_omega
    obtain rfl | rfl | htokstr := split
    · exact congrArg (gated · s.truncv) ht
    · exact congrArg (gated · s.tokenv) ht
    · obtain ⟨j, rfl⟩ := exists_register (base := 0x02C) (n := 3) h4 rfl htokstr (by bv_omega)
      exact (readValue_tokstr s j).trans (congrArg (gated · _) ht)
  · obtain ⟨i, rfl⟩ := exists_register (base := 0x0C0) (n := 5) h4 rfl hlo (by bv_omega)
    exact (readValue_digest s i).trans (congrArg (gated · _) hd)
  · obtain ⟨j, rfl⟩ := exists_register (base := 0x100) (n := 10) h4 rfl hlo (by bv_omega)
    exact (readValue_hex s j).trans (congrArg (gated · _) hd)

/-- Settles O22: the invariant leaves no result valid, and an invalid result reads 0. -/
theorem intermediateValuesHidden : Obligations.IntermediateValuesHidden := by
  intro s off h hidden h4 hoff
  obtain ⟨dvalid, tvalid⟩ := h.results_invalid hidden
  exact exec_rd_of_readValue h4 (readValue_result_invalid dvalid tvalid h4 hoff)

end Sys2Proof.Machine
end

section
/-! PROOFS. The step (00_scope.md section 4, 20_memory.md section 1): what each event does, that no well-formed
instruction stops, and that a pending command completes. -/

namespace Sys2Proof.Machine

/-! ## No well-formed instruction stops -/

theorem runCommand_answers (c : Op) (n : BitVec 7) (f : State → State) (s : State) :
    ∃ t, runCommand c n f s = .next t := by
  cases ha : s.agent with
  | host => exact ⟨_, runCommand_host c n f ha⟩
  | engine => exact ⟨_, runCommand_engine c n f ha⟩

/-- Settles O13: only a misaligned offset is a fault, and no well-formed instruction has one. -/
theorem wellFormedInstructionAnswers : Obligations.WellFormedInstructionAnswers := by
  intro i s hwf
  cases i
  case hashInit => exact runCommand_answers _ _ _ s
  case hashUpdate => exact runCommand_answers _ _ _ s
  case hashFinal => exact runCommand_answers _ _ _ s
  case macStart => exact runCommand_answers _ _ _ s
  case macFinal => exact runCommand_answers _ _ _ s
  case tokenGen => exact runCommand_answers _ _ _ s
  case clear => exact runCommand_answers _ _ _ s
  case rd off => exact ⟨_, exec_rd s (aligned_iff.1 hwf)⟩
  case wrIgnored off v =>
    obtain ⟨h4, -⟩ := (Bool.and_eq_true _ _).mp hwf
    exact ⟨_, exec_wrIgnored v s (aligned_iff.1 h4)⟩
  all_goals exact ⟨_, rfl⟩

/-! ## The Host's accesses -/

theorem step_access_ok {s : State} {a : Access} {rest : List Event} {i : Instr} (h : s.inputs = .access a :: rest)
    (hd : decode a = .ok i) : step s = exec i { s with inputs := rest, agent := .host } := by
  rw [step_access h, hd]

theorem step_access_error {s : State} {a : Access} {rest : List Event} {e : Reject}
    (h : s.inputs = .access a :: rest) (hd : decode a = .error e) : step s = .fault .busFault := by
  rw [step_access h, hd]

/-- An access by an address inside the window is the access at its offset (R43). -/
theorem windowAccess_inside (dir : Dir) (size : Nat) (off : BitVec 12) (v : Word) :
    windowAccess ⟨dir, size, Config.pBase + off.toNat, v⟩ = some (.bus ⟨dir, size, off, v⟩) := by
  have inside : Config.pBase ≤ Config.pBase + off.toNat ∧
      Config.pBase + off.toNat < Config.pBase + Config.windowBytes :=
    ⟨Nat.le_add_right _ _, Nat.add_lt_add_left off.isLt _⟩
  rw [windowAccess, if_pos inside, Nat.add_sub_cancel_left, BitVec.ofNat_toNat, BitVec.setWidth_eq]

theorem windowAccess_outside {p : PlatformAccess} (h : p.addr < Config.pBase ∨ Config.pBase + 4096 ≤ p.addr) :
    windowAccess p = none := by
  have outside : ¬ (Config.pBase ≤ p.addr ∧ p.addr < Config.pBase + Config.windowBytes) := by
    change ¬ (Config.pBase ≤ p.addr ∧ p.addr < Config.pBase + 4096)
    omega
  rw [windowAccess, if_neg outside]

/-- A platform access that reaches the block does what the access at its offset does. -/
theorem step_platform_some {s : State} {p : PlatformAccess} {rest : List Event} {a : Access}
    (h : s.inputs = .platform p :: rest) (ha : windowAccess p = some a) :
    step s = step { s with inputs := .access a :: rest } := by
  rw [step_platform h, ha, step_access (s := { s with inputs := .access a :: rest }) rfl]

theorem step_platform_none {s : State} {p : PlatformAccess} {rest : List Event}
    (h : s.inputs = .platform p :: rest) (ha : windowAccess p = none) :
    step s = .next { s with inputs := rest } := by
  rw [step_platform h, ha]

/-- Settles O6: an access is fetched and decoded, one by platform address after its offset is taken. -/
theorem stepRunsHostAccess : Obligations.StepRunsHostAccess := by
  refine ⟨fun s a rest i => step_access_ok, fun s dir off v rest i hi hd => ?_⟩
  rw [step_platform_some hi (windowAccess_inside dir 4 off v)]
  exact step_access_ok rfl hd

/-- Settles O8: an access faults exactly when it does not decode, and outside the window it is not seen. -/
theorem busFaultOnSubWordOrMisaligned : Obligations.BusFaultOnSubWordOrMisaligned := by
  refine ⟨fun s b rest hi => ⟨fun hbad => ?fault, fun hs h4 => ?answer⟩,
    fun s p rest hi => ⟨fun hout => step_platform_none hi (windowAccess_outside hout), fun off haddr hbad => ?platform⟩⟩
  case fault =>
    obtain ⟨e, he⟩ := decodeBus_error hbad
    exact step_access_error hi he
  case answer =>
    obtain ⟨i, hd⟩ := exists_decodeBus hs h4
    rw [step_access_ok hi hd]
    exact wellFormedInstructionAnswers i _ (encode_decodeBus hd).1
  case platform =>
    obtain ⟨dir, size, addr, v⟩ := p
    obtain rfl : addr = Config.pBase + off.toNat := haddr
    obtain ⟨e, he⟩ := decodeBus_error (b := ⟨dir, size, off, v⟩) hbad
    rw [step_platform_some hi (windowAccess_inside dir size off v)]
    exact step_access_error rfl he

/-! ## The Engine's step and reset -/

/-- No completion sets ERR. -/
theorem commandEffect_err {c : Op} {n : BitVec 7} {s : State} (h : (commandEffect c n s).err = true) :
    s.err = true := by
  cases c
  case clear => cases h
  all_goals exact h

/-- Settles O7, by the two cases of the Engine's step. -/
theorem engineCompletesPendingCommand : Obligations.EngineCompletesPendingCommand := by
  intro s rest hi
  refine ⟨fun hb => step_engine_idle hi ((not_busy_iff s).1 hb), fun p hp => ?_⟩
  have done := step_engine_pending hi hp
  refine ⟨done.trans (exec_command_engine p.op p.nbytes rfl).symm, _, done, ?effect, rfl, fun herr => ?error⟩
  case effect =>
    obtain ⟨op, n⟩ := p
    cases op <;> rfl
  case error => exact commandEffect_err (s := { s with inputs := rest, agent := .engine }) herr

/-- Settles O10: the reset event's state, and the values of R42. -/
theorem resetInputAndResetValues : Obligations.ResetInputAndResetValues := by
  refine ⟨fun s rest => step_reset, ?_⟩
  decide

/-! ## A pending command completes (R10) -/

/-- While a command is pending the Host's instructions leave it, and the list of events, alone. -/
theorem exec_host_busy {i : Instr} {s t : State} (ha : s.agent = .host) (hb : s.busy = true)
    (h : exec i s = .next t) : t = { s with err := t.err, errcode := t.errcode, rdata := t.rdata } := by
  have not_idle : s.busy ≠ false := by simp [hb]
  obtain ⟨c, -, rfl⟩ | ⟨p, idle, -⟩ | ⟨v, rfl⟩ | rfl | ⟨idle, -⟩ | ⟨idle, -⟩ | ⟨idle, -⟩ | ⟨idle, -⟩ |
    ⟨idle, -⟩ | ⟨idle, -⟩ := exec_host_cases ha h
  case inl => rfl
  case inr.inr.inl => rfl
  case inr.inr.inr.inl => rfl
  all_goals exact absurd idle not_idle

/-- An access while a command is pending is a bus fault, or the command stays pending past it. -/
theorem step_access_busy {s : State} {a : Access} {rest : List Event} (hb : s.busy = true)
    (hi : s.inputs = .access a :: rest) :
    step s = .fault .busFault ∨ ∃ t, step s = .next t ∧ t.busy = true ∧ t.inputs = rest := by
  cases hd : decode a with
  | error e => exact .inl (step_access_error hi hd)
  | ok i =>
    obtain ⟨t, ht⟩ := wellFormedInstructionAnswers i { s with inputs := rest, agent := .host } (wf_of_decode hd)
    have kept := exec_host_busy (s := { s with inputs := rest, agent := .host }) rfl hb ht
    exact .inr ⟨t, (step_access_ok hi hd).trans ht, by rw [kept]; exact hb, by rw [kept]⟩

/-- Each event is an access that faults, ends the pending command, or is taken with the command still pending. -/
theorem step_busy {s : State} {e : Event} {rest : List Event} (hb : s.busy = true) (hi : s.inputs = e :: rest) :
    step s = .fault .busFault ∨
    ∃ t, step s = .next t ∧ (t.busy = false ∨ (t.busy = true ∧ t.inputs = rest)) := by
  obtain ⟨p, hp⟩ := (busy_iff s).1 hb
  cases e with
  | access a => exact (step_access_busy hb hi).imp_right fun ⟨t, ht, kept⟩ => ⟨t, ht, .inr kept⟩
  | platform q =>
    cases hw : windowAccess q with
    | none => exact .inr ⟨_, step_platform_none hi hw, .inr ⟨hb, rfl⟩⟩
    | some a =>
      rw [step_platform_some hi hw]
      exact (step_access_busy (s := { s with inputs := .access a :: rest }) hb rfl).imp_right
        fun ⟨t, ht, kept⟩ => ⟨t, ht, .inr kept⟩
  | engine => exact .inr ⟨_, step_engine_pending (.inl hi) hp, .inl rfl⟩
  | reset => exact .inr ⟨_, step_reset hi, .inl rfl⟩

/-- Settles O9, by induction on the events still to come: the Engine takes the step when none is left. -/
theorem pendingCommandCompletes : Obligations.PendingCommandCompletes := by
  intro s hb
  generalize hi : s.inputs = l
  induction l generalizing s with
  | nil =>
    obtain ⟨p, hp⟩ := (busy_iff s).1 hb
    have done := step_engine_pending (.inr ⟨hi, rfl⟩) hp
    exact ⟨1, le_rfl, .inr ⟨_, runSteps_succ_of_next done, rfl⟩⟩
  | cons e rest ih =>
    obtain fault | ⟨t, ht, idle | ⟨busy, hrest⟩⟩ := step_busy hb hi
    · exact ⟨1, by simp, .inl (runSteps_succ_of_fault fault)⟩
    · exact ⟨1, by simp, .inr ⟨t, runSteps_succ_of_next ht, idle⟩⟩
    · obtain ⟨k, hk, ends⟩ := ih t busy hrest
      exact ⟨k + 1, Nat.succ_le_succ hk, by rwa [runSteps_succ_of_next ht]⟩

end Sys2Proof.Machine
end

section
/-! PROOFS. What the Host, the completions and a locked configuration leave unchanged. -/

namespace Sys2Proof.Machine

/-- Settles O16: of the cases of the Host's instruction, an idle block is asked for by all that change more. -/
theorem pendingCommandInputsStable : Obligations.PendingCommandInputsStable :=
  fun _ _ _ => exec_host_busy

/-- Settles O17: in no case does the Host write a result; only the acceptance changes the valid bits. -/
theorem hostAccessKeepsResults : Obligations.HostAccessKeepsResults := by
  intro i s t ha h
  obtain ⟨c, -, rfl⟩ | ⟨p, idle, -, rfl⟩ | ⟨v, rfl⟩ | rfl | ⟨-, -, d, l, -, -, rfl⟩ | ⟨-, b, rfl⟩ | ⟨-, n, rfl⟩ |
    ⟨-, c, rfl⟩ | ⟨-, m, rfl⟩ | ⟨-, k, rfl⟩ := exec_host_cases ha h
  case inr.inl => exact ⟨rfl, rfl, rfl, rfl, rfl, rfl, .inr ⟨rfl, rfl, rfl, rfl, idle⟩⟩
  all_goals exact ⟨rfl, rfl, rfl, rfl, rfl, rfl, .inl ⟨rfl, rfl, rfl, rfl⟩⟩

/-- Settles O18: no effect but CLEAR's names one of these registers. -/
theorem completionKeepsHostRegisters : Obligations.CompletionKeepsHostRegisters := by
  intro c n s t ha h
  rw [exec_command_engine c n ha] at h
  cases h
  cases c
  case clear => exact ⟨rfl, rfl, rfl, rfl, rfl, fun other => absurd rfl other⟩
  all_goals exact ⟨rfl, rfl, rfl, rfl, rfl, fun _ => ⟨rfl, rfl, rfl, rfl, rfl, rfl⟩⟩

theorem exec_host_locked {i : Instr} {s t : State} (ha : s.agent = .host) (hl : s.lock = true)
    (h : exec i s = .next t) : t.lock = true ∧ t.digits = s.digits := by
  obtain ⟨c, -, rfl⟩ | ⟨p, -, -, rfl⟩ | ⟨v, rfl⟩ | rfl | ⟨-, unlocked, -⟩ | ⟨-, b, rfl⟩ | ⟨-, n, rfl⟩ |
    ⟨-, c, rfl⟩ | ⟨-, m, rfl⟩ | ⟨-, k, rfl⟩ := exec_host_cases ha h
  case inr.inr.inr.inr.inl => exact absurd (hl.symm.trans unlocked) (by decide)
  all_goals exact ⟨hl, rfl⟩

theorem commandEffect_config (c : Op) (n : BitVec 7) (s : State) :
    (commandEffect c n s).lock = s.lock ∧ (commandEffect c n s).digits = s.digits := by
  cases c <;> exact ⟨rfl, rfl⟩

/-- Settles O20, by the cases of a step: the Host's write is refused, and no completion writes CFG. -/
theorem lockedConfigurationStaysUntilReset : Obligations.LockedConfigurationStaysUntilReset := by
  intro s t hl h
  obtain ⟨rest, i, hx, -⟩ | ⟨rest, p, -, rfl⟩ | ⟨rest, hi, -⟩ | ⟨rest, rfl⟩ := step_cases h
  · exact .inl (exec_host_locked (s := { s with inputs := rest, agent := .host }) rfl hl hx)
  · obtain ⟨lock, digits⟩ := commandEffect_config p.op p.nbytes { s with inputs := rest, agent := .engine }
    exact .inl ⟨lock.trans hl, digits⟩
  · exact .inr ⟨rest, hi⟩
  · exact .inl ⟨hl, rfl⟩

end Sys2Proof.Machine
end

section
/-! PROOFS. Noninterference: KEY and KSAVE reach nothing but a keyed computation (R29, R36, R123). -/

namespace Sys2Proof.Machine

/-- The same state with other secrets. -/
def withKey (k : Vector Word 16) (ks : Vector Byte 64) (s : State) : State := { s with key := k, ksave := ks }

theorem agreeButKey_iff {s t : State} : AgreeButKey s t ↔ ∃ k ks, t = withKey k ks s := by
  constructor
  · exact fun h => ⟨t.key, t.ksave, h⟩
  · rintro ⟨k, ks, rfl⟩
    rfl

/-! ## The operations -/

/-- The checks of a write to CMD read KEYLEN, and no byte of the key (R117). -/
theorem issueCommand_withKey (k : Vector Word 16) (ks : Vector Byte 64) (v : Word) (s : State) :
    issueCommand v (withKey k ks s) = withKey k ks (issueCommand v s) := by
  have check : cmdCheck v (withKey k ks s) = cmdCheck v s := rfl
  unfold issueCommand
  rw [check]
  cases cmdCheck v s <;> rfl

theorem writeUnlessBusy_withKey (k : Vector Word 16) (ks : Vector Byte 64) (s u : State) :
    writeUnlessBusy (withKey k ks s) (withKey k ks u) = withKey k ks (writeUnlessBusy s u) := by
  cases hb : s.busy
  · rw [writeUnlessBusy_of_idle u hb]; exact writeUnlessBusy_of_idle _ hb
  · rw [writeUnlessBusy_of_busy u hb]; exact writeUnlessBusy_of_busy _ hb

theorem runCommand_host_withKey {k : Vector Word 16} {ks : Vector Byte 64} {c : Op} {n : BitVec 7}
    {f : State → State} {s u : State} (ha : s.agent = .host) (hx : runCommand c n f s = .next u) :
    runCommand c n f (withKey k ks s) = .next (withKey k ks u) := by
  rw [runCommand_host c n f ha] at hx
  cases hx
  rw [runCommand_host c n f (s := withKey k ks s) ha, issueCommand_withKey]

/-- A completion that is not keyed makes nothing of KEY or KSAVE, though it may zero them. -/
theorem complete_withKey {c : Op} (n : BitVec 7) (hc : c ≠ .macStart ∧ c ≠ .macFinal ∧ c ≠ .tokenGen)
    (k : Vector Word 16) (ks : Vector Byte 64) (s : State) :
    AgreeButKey (finishCommand (commandEffect c n s)) (finishCommand (commandEffect c n (withKey k ks s))) := by
  obtain ⟨start, final, token⟩ := hc
  cases c
  case macStart => exact absurd rfl start
  case macFinal => exact absurd rfl final
  case tokenGen => exact absurd rfl token
  all_goals rfl

/-! ## The Host's instructions -/

/-- No instruction of the Host's looks at the secrets; only a write to KEY changes one. -/
theorem exec_host_withKey {i : Instr} {s u : State} (k : Vector Word 16) (ks : Vector Byte 64)
    (ha : s.agent = .host) (hx : exec i s = .next u) :
    ∃ k', exec i (withKey k ks s) = .next (withKey k' ks u) := by
  have written : ∀ w, (.next (writeUnlessBusy s w) : Result) = .next u →
      (.next (writeUnlessBusy (withKey k ks s) (withKey k ks w)) : Result) = .next (withKey k ks u) := by
    rintro w ⟨⟩
    rw [writeUnlessBusy_withKey]
  cases i
  case hashInit => exact ⟨k, runCommand_host_withKey ha hx⟩
  case hashUpdate => exact ⟨k, runCommand_host_withKey ha hx⟩
  case hashFinal => exact ⟨k, runCommand_host_withKey ha hx⟩
  case macStart => exact ⟨k, runCommand_host_withKey ha hx⟩
  case macFinal => exact ⟨k, runCommand_host_withKey ha hx⟩
  case tokenGen => exact ⟨k, runCommand_host_withKey ha hx⟩
  case clear => exact ⟨k, runCommand_host_withKey ha hx⟩
  case illegalOp0 => cases hx; exact ⟨k, rfl⟩
  case illegalOp8To15 => cases hx; exact ⟨k, rfl⟩
  case illegalReserved => cases hx; exact ⟨k, rfl⟩
  case rd off =>
    simp only [exec, execRd] at hx ⊢
    split_ifs at hx ⊢
    cases hx
    exact ⟨k, by rw [withKey, readValue_key]; rfl⟩
  case wrCmd v =>
    cases hx
    exact ⟨k, congrArg _ (issueCommand_withKey k ks v s)⟩
  case wrCfg v =>
    have check : cfgCheck v (withKey k ks s) = cfgCheck v s := rfl
    simp only [exec, execWrCfg, check] at hx ⊢
    cases hc : cfgCheck v s <;> rw [hc] at hx <;> cases hx <;> exact ⟨k, rfl⟩
  case wrIrqEn v => exact ⟨k, written _ hx⟩
  case wrKeylen v => exact ⟨k, written _ hx⟩
  case wrCounter v => exact ⟨k, written _ hx⟩
  case wrMsg j v => exact ⟨k, written _ hx⟩
  case wrKey j v =>
    cases hx
    cases hb : s.busy
    case false =>
      rw [writeUnlessBusy_of_idle _ hb]
      exact ⟨setWord k j v, congrArg Host.Outcome.next (writeUnlessBusy_of_idle (s := withKey k ks s) _ hb)⟩
    case true =>
      rw [writeUnlessBusy_of_busy _ hb]
      exact ⟨k, congrArg Host.Outcome.next (writeUnlessBusy_of_busy (s := withKey k ks s) _ hb)⟩
  case wrIgnored off v =>
    simp only [exec, execWrIgnored] at hx ⊢
    split_ifs at hx ⊢
    cases hx
    exact ⟨k, rfl⟩

/-! ## The step -/

theorem step_access_withKey {s u : State} {a : Access} {rest : List Event} (k : Vector Word 16) (ks : Vector Byte 64)
    (hi : s.inputs = .access a :: rest) (hx : step s = .next u) :
    ∃ w, step (withKey k ks s) = .next w ∧ AgreeButKey u w := by
  cases hd : decode a with
  | error e => rw [step_access_error hi hd] at hx; cases hx
  | ok i =>
    rw [step_access_ok hi hd] at hx
    obtain ⟨k', hk'⟩ := exec_host_withKey k ks rfl hx
    exact ⟨_, (step_access_ok (s := withKey k ks s) hi hd).trans hk', rfl⟩

theorem step_engine_withKey {s u : State} {rest : List Event} (k : Vector Word 16) (ks : Vector Byte 64)
    (hi : s.inputs = .engine :: rest ∨ (s.inputs = [] ∧ rest = []))
    (hc : ∀ p, s.pend = some p → p.op ≠ .macStart ∧ p.op ≠ .macFinal ∧ p.op ≠ .tokenGen)
    (hx : step s = .next u) : ∃ w, step (withKey k ks s) = .next w ∧ AgreeButKey u w := by
  cases hp : s.pend with
  | none =>
    rw [step_engine_idle hi hp] at hx
    cases hx
    exact ⟨_, step_engine_idle (s := withKey k ks s) hi hp, rfl⟩
  | some p =>
    rw [step_engine_pending hi hp] at hx
    cases hx
    exact ⟨_, step_engine_pending (s := withKey k ks s) hi hp, complete_withKey p.nbytes (hc p hp) k ks _⟩

/-- Settles O21: the two runs take the same event, and no case of it makes anything of the key. -/
theorem keyNeverLeaks : Obligations.KeyNeverLeaks := by
  intro s t u h hkeyed hx
  obtain ⟨k, ks, rfl⟩ := agreeButKey_iff.1 h
  cases hi : s.inputs with
  | nil => exact step_engine_withKey k ks (.inr ⟨hi, rfl⟩) (hkeyed (.inl hi)) hx
  | cons e rest =>
    cases e with
    | access a => exact step_access_withKey k ks hi hx
    | platform p =>
      cases hw : windowAccess p with
      | some a =>
        rw [step_platform_some hi hw] at hx
        rw [step_platform_some (s := withKey k ks s) hi hw]
        exact step_access_withKey (s := { s with inputs := .access a :: rest }) k ks rfl hx
      | none =>
        rw [step_platform_none hi hw] at hx
        cases hx
        exact ⟨_, step_platform_none (s := withKey k ks s) hi hw, rfl⟩
    | engine => exact step_engine_withKey k ks (.inl hi) (hkeyed (.inr ⟨rest, hi⟩)) hx
    | reset =>
      rw [step_reset hi] at hx
      cases hx
      exact ⟨_, step_reset (s := withKey k ks s) hi, rfl⟩

end Sys2Proof.Machine
end

section
/-! PROOFS. The fields of STATUS (R18), each bit read through the `|||` it is made of. -/

namespace Sys2Proof.Machine

theorem getLsbD_bitWord (b : Bool) (i : Nat) : (bitWord b).getLsbD i = (decide (i = 0) && b) := by
  cases b <;> simp [bitWord]

/-- MODE has two bits (R34). -/
theorem getLsbD_modeCode_high (m : Mode) {i : Nat} (h : 2 ≤ i) : (modeCode m).getLsbD i = false := by
  have two : modeCode m = ((modeCode m).setWidth 2).setWidth 32 := by cases m <;> rfl
  rw [two, BitVec.getLsbD_setWidth, BitVec.getLsbD_of_ge _ _ h, Bool.and_false]

/-- ERRCODE has four bits (R115). -/
theorem getLsbD_errCode_high (c : ErrCode) {i : Nat} (h : 4 ≤ i) : (errCode c).getLsbD i = false := by
  have four : errCode c = ((errCode c).setWidth 4).setWidth 32 := by cases c <;> rfl
  rw [four, BitVec.getLsbD_setWidth, BitVec.getLsbD_of_ge _ _ h, Bool.and_false]

/-- Bit i of STATUS, as R18 puts the fields together. -/
theorem getLsbD_statusWord (s : State) {i : Nat} (h : i < 32) :
    (statusWord s).getLsbD i =
      (decide (i = 0) && s.busy || decide (i = 1) && s.done || decide (i = 2) && s.err ||
        decide (4 ≤ i) && (modeCode s.mode).getLsbD (i - 4) || decide (i = 6) && s.dvalid ||
        decide (i = 7) && s.tvalid || decide (8 ≤ i) && (errCode s.errcode).getLsbD (i - 8)) := by
  have place : ∀ (b : Bool) (k : Nat), (bitWord b <<< k).getLsbD i = (decide (i = k) && b) := by
    intro b k
    rw [BitVec.getLsbD_shiftLeft, getLsbD_bitWord]
    rcases lt_trichotomy i k with lt | rfl | gt
    · simp [lt, lt.ne]
    · simp [h]
    · simp [gt.ne', Nat.sub_ne_zero_of_lt gt]
  have first : (bitWord s.busy).getLsbD i = (decide (i = 0) && s.busy) := getLsbD_bitWord s.busy i
  simp only [statusWord, BitVec.getLsbD_or, place, first, BitVec.getLsbD_shiftLeft, h, decide_true, Bool.true_and,
    ← Nat.not_lt, decide_not]

theorem statusWord_errcodeField (s : State) : (statusWord s).extractLsb' 8 4 = (errCode s.errcode).setWidth 4 := by
  apply BitVec.eq_of_getLsbD_eq
  intro i hi
  have mode : (modeCode s.mode).getLsbD (8 + i - 4) = false := getLsbD_modeCode_high _ (by omega)
  rw [BitVec.getLsbD_extractLsb', getLsbD_statusWord s (by omega), BitVec.getLsbD_setWidth, mode]
  simp [hi]
  omega

theorem statusWord_reservedField (s : State) : (statusWord s).extractLsb' 12 20 = 0 := by
  apply BitVec.eq_of_getLsbD_eq
  intro i hi
  have mode : (modeCode s.mode).getLsbD (12 + i - 4) = false := getLsbD_modeCode_high _ (by omega)
  have code : (errCode s.errcode).getLsbD (12 + i - 8) = false := getLsbD_errCode_high _ (by omega)
  rw [BitVec.getLsbD_extractLsb', getLsbD_statusWord s (by omega), mode, code]
  simp
  omega

/-- Settles O24: the flags and bit 3 by the formula for a bit, MODE, ERRCODE and the reserved bits as fields. -/
theorem statusFieldPlaces : Obligations.StatusFieldPlaces := by
  intro s
  refine ⟨?_, ?_, ?_, ?_, ?mode, ?_, ?_, ?errcode, statusWord_reservedField s⟩
  case mode =>
    rw [statusWord_modeField]
    cases s.mode <;> rfl
  case errcode =>
    rw [statusWord_errcodeField]
    cases s.errcode <;> rfl
  all_goals
    rw [getLsbD_statusWord s (by decide)]
    simp [getLsbD_modeCode_high, -BitVec.getLsbD_eq_getElem]

end Sys2Proof.Machine
end

section
/-! PROOFS. The rest of the pure functions: the phase functions, the rounds of a compression, the hex rendering, the
byte order, the two passes of the MAC and the decimal string. -/

namespace Sys2Proof.Machine

/-! ## The phase functions (R69) -/

theorem getLsbD_phase_choose {t : Nat} (b c d : Word) {i : Nat} (ht : t < 20) (hi : i < 32) :
    (phase t b c d).getLsbD i = if b.getLsbD i then c.getLsbD i else d.getLsbD i := by
  rw [phase, if_pos ht, BitVec.getLsbD_or, BitVec.getLsbD_and, BitVec.getLsbD_and, BitVec.getLsbD_not]
  cases b.getLsbD i <;> simp [hi]

theorem getLsbD_phase_parity {t : Nat} (b c d : Word) (i : Nat) (ht : (20 ≤ t ∧ t < 40) ∨ 60 ≤ t) :
    (phase t b c d).getLsbD i = (b.getLsbD i ^^ c.getLsbD i ^^ d.getLsbD i) := by
  have parity : phase t b c d = b ^^^ c ^^^ d := by
    unfold phase
    split_ifs
    case pos => omega
    case pos => rfl
    case pos => omega
    case neg => rfl
  rw [parity, BitVec.getLsbD_xor, BitVec.getLsbD_xor]

theorem getLsbD_phase_majority {t : Nat} (b c d : Word) (i : Nat) (ht : 40 ≤ t ∧ t < 60) :
    (phase t b c d).getLsbD i =
      (b.getLsbD i && c.getLsbD i || b.getLsbD i && d.getLsbD i || c.getLsbD i && d.getLsbD i) := by
  rw [phase, if_neg (by omega), if_neg (by omega), if_pos ht.2]
  simp

theorem xor_eq_true_iff_odd (x y z : Bool) : (x ^^ y ^^ z) = true ↔ (x.toNat + y.toNat + z.toNat) % 2 = 1 := by
  revert x y z
  decide

theorem majority_eq_true_iff (x y z : Bool) :
    (x && y || x && z || y && z) = true ↔ 2 ≤ x.toNat + y.toNat + z.toNat := by
  revert x y z
  decide

/-- Settles O41: each phase's function at one bit, and the truth tables of parity and majority. -/
theorem phaseFunctionsBitwise : Obligations.PhaseFunctionsBitwise := by
  refine fun t b c d i ht hi => ⟨fun h => ?choose, fun h => ?parity, fun h => ?majority⟩
  case choose => exact getLsbD_phase_choose b c d (by omega) hi
  case parity =>
    rw [getLsbD_phase_parity b c d i (by omega)]
    exact xor_eq_true_iff_odd _ _ _
  case majority =>
    rw [getLsbD_phase_majority b c d i (by omega)]
    exact majority_eq_true_iff _ _ _

/-! ## The rounds of a compression (R71 to R73) -/

/-- The working variables after the first `t` rounds over a block. -/
def varsAfter (h : Digest) (m : List Byte) (t : Nat) : Vars := rounds 0 ((schedule m).take t) (startVars h)

theorem varsAfter_succ (h : Digest) (m : List Byte) {t : Nat} (ht : t < 80) :
    varsAfter h m (t + 1) = roundStep t ((schedule m).getD t 0) (varsAfter h m t) := by
  have inSchedule : t < (schedule m).length := by rwa [length_schedule]
  rw [varsAfter, List.take_succ_eq_append_getElem inSchedule, rounds_append_one, List.length_take_of_le inSchedule.le,
    Nat.zero_add, List.getD_eq_getElem _ _ inSchedule, varsAfter]

theorem compress_eq_varsAfter (h : Digest) (m : List Byte) : compress h m = feedForward h (varsAfter h m 80) := by
  rw [compress, varsAfter, List.take_of_length_le (length_schedule m).le]

/-- Settles O43: the sequence is that of the rounds over the schedule's first words. -/
theorem compressRunsEightyRounds : Obligations.CompressRunsEightyRounds :=
  fun h m _ => ⟨varsAfter h m, rfl, fun _ => varsAfter_succ h m, compress_eq_varsAfter h m⟩

/-! ## The hex rendering (R79) -/

theorem getElem?_flatMap_pair {α β : Type} (f g : α → β) (l : List α) (k : Nat) :
    (l.flatMap fun x => [f x, g x])[2 * k]? = l[k]?.map f ∧
    (l.flatMap fun x => [f x, g x])[2 * k + 1]? = l[k]?.map g := by
  induction l generalizing k with
  | nil => simp
  | cons x l ih =>
    cases k with
    | zero => simp
    | succ k => exact ih k

theorem hexChar_high (x : Byte) : hexChar (x >>> 4) =
    BitVec.ofNat 8 (if x.toNat / 16 ≤ 9 then 0x30 + x.toNat / 16 else 0x61 + (x.toNat / 16 - 10)) := by
  revert x
  decide

theorem hexChar_low (x : Byte) : hexChar (x &&& 0x0F) =
    BitVec.ofNat 8 (if x.toNat % 16 ≤ 9 then 0x30 + x.toNat % 16 else 0x61 + (x.toNat % 16 - 10)) := by
  revert x
  decide

/-- Settles O48: characters 2k and 2k+1 are made of byte k, and each nibble's character is known. -/
theorem hexRendering : Obligations.HexRendering := by
  refine fun h => ⟨rfl, fun k hk => ?_⟩
  obtain ⟨high, low⟩ :=
    getElem?_flatMap_pair (fun x : Byte => hexChar (x >>> 4)) (fun x => hexChar (x &&& 0x0F)) (ser h) k
  have byte : (ser h)[k]? = some (ser h)[k] := List.getElem?_eq_getElem hk
  refine ⟨_, byte, ?_, ?_⟩
  · rw [← hexChar_high]
    exact high.trans (by rw [byte]; rfl)
  · rw [← hexChar_low]
    exact low.trans (by rw [byte]; rfl)

/-! ## Byte order (R7) -/

theorem getElem?_beBytes {n : Nat} (v : Nat) {i : Nat} (h : i < n) :
    (beBytes n v)[i]? = some (BitVec.ofNat 8 (v / 256 ^ (n - 1 - i))) := by
  rw [beBytes, List.getElem?_map, List.getElem?_range h, Option.map_some]

theorem pow_256_eq (n : Nat) : 256 ^ n = 2 ^ (8 * n) := (pow_mul 2 8 n).symm

/-- Settles O49: the lengths, the bytes and the two inverses. -/
theorem bigEndianPrimitives : Obligations.BigEndianPrimitives := by
  refine ⟨fun n v => ⟨length_beBytes n v, fun _ => getElem?_beBytes v⟩, fun n v hv => ?inverse,
    fun b => ⟨?bound, beBytes_unBE b⟩⟩
  case inverse => exact unBE_beBytes (pow_256_eq n ▸ hv)
  case bound => exact pow_256_eq b.length ▸ unBE_lt b

/-! ## The two passes of the MAC (R88) -/

theorem length_take_wholeBlocks (m : List Byte) : (m.take (64 * (m.length / 64))).length = 64 * (m.length / 64) :=
  List.length_take_of_le (by omega)

theorem compressBlocks_take (h : Digest) (m : List Byte) :
    compressBlocks h (m.take (64 * (m.length / 64))) (m.length / 64) = compressBlocks h m (m.length / 64) := by
  have split := compressBlocks_append h (length_take_wholeBlocks m) (m.drop (64 * (m.length / 64))) 0
  rw [List.take_append_drop, Nat.add_zero, compressBlocks_zero] at split
  exact split.symm

/-- A message behind one block: the block is compressed first, and the length counts it. -/
theorem sha1State_block_append {a : List Byte} (ha : a.length = 64) (m : List Byte) :
    sha1State (a ++ m) = finish (compressBlocks (compress iv a) m (m.length / 64))
      (m.drop (64 * (m.length / 64))) (bitLength (64 + m.length)) := by
  have whole := length_take_wholeBlocks m
  have blocks : (a ++ m.take (64 * (m.length / 64))).length = 64 * (1 + m.length / 64) := by
    rw [List.length_append, ha, whole]; ring
  have key := sha1State_append blocks (t := m.drop (64 * (m.length / 64))) (by simp; omega)
  rw [compressBlocks_append iv (k := 1) ha, compressBlocks_single iv ha, compressBlocks_take, List.append_assoc,
    List.take_append_drop, blocks, List.length_drop] at key
  rw [key, show 64 * (1 + m.length / 64) + (m.length - 64 * (m.length / 64)) = 64 + m.length by omega]

/-- The outer pass hashes the pad and 20 bytes, 672 bits. -/
theorem sha1State_opad (k : List Byte) (h : Digest) :
    sha1State (opad k ++ ser h) = finish (compress iv (opad k)) (ser h) 672 := by
  have bits : bitLength (64 + 20) = 672 := rfl
  rw [sha1State_append (k := 1) (length_opad k) (by simp), compressBlocks_single iv (length_opad k), length_opad,
    length_ser, bits]

/-- Settles O52: both passes put one block before what they hash. -/
theorem hmacTwoPasses : Obligations.HmacTwoPasses := by
  refine fun k m _ => ⟨rfl, length_hmac k m, sha1State (ipad k ++ m), rfl, ?inner, ?outer⟩
  case inner => exact sha1State_block_append (length_ipad k) m
  case outer => exact congrArg ser (sha1State_opad k _)

/-! ## The decimal string (R98) -/

theorem decimalString_succ (v : Word) (d : Nat) :
    decimalString v (d + 1) = BitVec.ofNat 8 (0x30 + v.toNat / 10 ^ d % 10) :: decimalString v d := by
  rw [decimalString, List.range_succ_eq_map, List.map_cons, List.map_map, decimalString]
  refine congrArg₂ List.cons rfl (List.map_congr_left fun j _ => ?_)
  have place : d + 1 - 1 - (j + 1) = d - 1 - j := by omega
  exact congrArg (fun e => BitVec.ofNat 8 (0x30 + v.toNat / 10 ^ e % 10)) place

theorem getElem?_decimalString (v : Word) {d j : Nat} (h : j < d) :
    (decimalString v d)[j]? = some (BitVec.ofNat 8 (0x30 + v.toNat / 10 ^ (d - 1 - j) % 10)) := by
  rw [decimalString, List.getElem?_map, List.getElem?_range h, Option.map_some]

/-- Reading one more decimal digit. -/
def appendDigit (acc : Nat) (x : Byte) : Nat := acc * 10 + (x.toNat - 0x30)

theorem appendDigit_digit (acc : Nat) {n : Nat} (h : n < 10) :
    appendDigit acc (BitVec.ofNat 8 (0x30 + n)) = acc * 10 + n := by
  rw [appendDigit, BitVec.toNat_ofNat, Nat.mod_eq_of_lt (by omega)]
  omega

/-- The string reads as the last d decimal digits of the value. -/
theorem foldl_decimalString (v : Word) (d acc : Nat) :
    (decimalString v d).foldl appendDigit acc = acc * 10 ^ d + v.toNat % 10 ^ d := by
  induction d generalizing acc with
  | zero => simp [decimalString, Nat.mod_one]
  | succ d ih =>
    have top := Nat.mod_mul (x := v.toNat) (a := 10 ^ d) (b := 10)
    rw [decimalString_succ, List.foldl_cons, appendDigit_digit acc (Nat.mod_lt _ (by decide)), ih, pow_succ, top]
    ring

/-- Settles O55: the places of the digits, and the value read back from them. -/
theorem decimalStringDigits : Obligations.DecimalStringDigits := by
  refine fun v d hv => ⟨length_decimalString v d, fun _ => decimalString_digit, fun _ => getElem?_decimalString v, ?_⟩
  have value := foldl_decimalString v d 0
  rw [Nat.mod_eq_of_lt hv, Nat.zero_mul, Nat.zero_add] at value
  exact value

end Sys2Proof.Machine
end

section
/-! PROOFS. The streams (40_digest.md section 2, 41_authenticator.md section 2): what the commands keep of an open
stream, what the final commands make of it, and that they read no byte past their counts. -/

namespace Sys2Proof.Machine

/-! ## Counting the bytes (R35, R76) -/

theorem ofNat_add_zeroExtend (k : Nat) (n : BitVec 7) :
    BitVec.ofNat 64 k + n.zeroExtend 64 = BitVec.ofNat 64 (k + n.toNat) := by
  apply BitVec.eq_of_toNat_eq
  simp

theorem eight_mul_ofNat (k : Nat) : 8 * BitVec.ofNat 64 k = bitLength k := by
  apply BitVec.eq_of_toNat_eq
  simp [bitLength]

/-- Whole blocks and one more. -/
theorem compressBlocks_append_block (h : Digest) {m b : List Byte} (hm : m.length % 64 = 0) (hb : b.length = 64) :
    compressBlocks h (m ++ b) ((m ++ b).length / 64) = compress (compressBlocks h m (m.length / 64)) b := by
  have whole : m.length = 64 * (m.length / 64) := by omega
  have count : (m ++ b).length / 64 = m.length / 64 + 1 := by
    rw [List.length_append, hb]; omega
  rw [count, compressBlocks_append h whole, compressBlocks_single _ hb]

/-! ## A plain stream -/

theorem hashStream_init (s : State) : HashStream [] (hashInitEffect s) := ⟨rfl, rfl, rfl, rfl⟩

/-- A stream is MODE, H and TLEN, which the end of a completion leaves. -/
theorem HashStream.finishCommand {m : List Byte} {s : State} (h : HashStream m s) :
    HashStream m (finishCommand s) := { h with }

theorem HashStream.acceptCommand {m : List Byte} {s : State} (p : Pending) (h : HashStream m s) :
    HashStream m (acceptCommand p s) := { h with }

theorem HashStream.update {m : List Byte} {s : State} (h : HashStream m s) :
    HashStream (m ++ msgBytes s) (hashUpdateEffect s) where
  mode_hash := h.mode_hash
  whole_blocks := by
    rw [List.length_append, length_msgBytes]
    have := h.whole_blocks
    omega
  absorbed := by
    rw [compressBlocks_append_block iv h.whole_blocks (length_msgBytes s), ← h.absorbed]
    rfl
  counted := by
    rw [List.length_append, length_msgBytes, BitVec.ofNat_add, ← h.counted]
    rfl

/-- The final command's length field counts what was absorbed and the tail (R83). -/
theorem HashStream.final {m : List Byte} {s : State} {n : BitVec 7} (h : HashStream m s) (hn : n ≤ 64) :
    (hashFinalEffect n s).h = sha1State (m ++ msgTail n s) ∧
      (hashFinalEffect n s).tlen = BitVec.ofNat 64 (m.length + n.toNat) := by
  have count : s.tlen + n.zeroExtend 64 = BitVec.ofNat 64 (m.length + n.toNat) := by
    rw [h.counted, ofNat_add_zeroExtend]
  have whole : m.length = 64 * (m.length / 64) := by
    have := h.whole_blocks
    omega
  refine ⟨?_, count⟩
  rw [sha1State_append whole (length_msgTail_le n s), length_msgTail s hn, ← eight_mul_ofNat, ← count, ← h.absorbed]
  rfl

/-- Settles O56: each completion's effect on the stream, and the end of the completion leaves it. -/
theorem hashStreamComputesSha1 : Obligations.HashStreamComputesSha1 := by
  refine ⟨fun s ha => ?init, fun s m ha h => ?update, fun s m n ha h hn => ?final⟩
  case init => exact ⟨_, exec_command_engine .hashInit 0 ha, (hashStream_init s).finishCommand⟩
  case update => exact ⟨_, exec_command_engine .hashUpdate 64 ha, h.update.finishCommand⟩
  case final =>
    obtain ⟨digest, count⟩ := h.final hn
    exact ⟨_, exec_command_engine .hashFinal n ha, congrArg ser digest, count, rfl, rfl⟩

/-! ## A keyed stream -/

theorem MacStream.finishCommand {k m : List Byte} {s : State} (h : MacStream k m s) :
    MacStream k m (finishCommand s) := { h with }

theorem MacStream.acceptCommand {k m : List Byte} {s : State} (p : Pending) (h : MacStream k m s) :
    MacStream k m (acceptCommand p s) := { h with }

theorem macStream_start {s : State} (hk : s.keylen ≤ 64) : MacStream (keyOperand s) [] (macStartEffect s) where
  mode_mac := rfl
  key_short := (length_keyOperand hk).trans_le hk
  whole_blocks := rfl
  absorbed := by rw [macStartEffect_eq hk]; rfl
  counted := rfl
  latched := by rw [length_keyOperand hk]; exact latchedKey_toList hk

theorem MacStream.update {k m : List Byte} {s : State} (h : MacStream k m s) :
    MacStream k (m ++ msgBytes s) (hashUpdateEffect s) where
  mode_mac := h.mode_mac
  key_short := h.key_short
  whole_blocks := by
    rw [List.length_append, length_msgBytes]
    have := h.whole_blocks
    omega
  absorbed := by
    rw [compressBlocks_append_block _ h.whole_blocks (length_msgBytes s), ← h.absorbed]
    rfl
  counted := by
    rw [List.length_append, length_msgBytes, BitVec.ofNat_add, ← h.counted]
    rfl
  latched := h.latched

/-- The inner pass of R91 is SHA1 of the inner pad, what was absorbed and the tail. -/
theorem MacStream.innerDigest {k m : List Byte} {s : State} {n : BitVec 7} (h : MacStream k m s) (hn : n ≤ 64) :
    innerDigest n s = sha1State (ipad k ++ (m ++ msgTail n s)) := by
  have whole : m.length = 64 * (m.length / 64) := by
    have := h.whole_blocks
    omega
  have blocks : (ipad k ++ m).length = 64 * (1 + m.length / 64) := by
    rw [List.length_append, length_ipad]; omega
  have count : 64 + (s.tlen + n.zeroExtend 64) = BitVec.ofNat 64 (64 + m.length + n.toNat) := by
    rw [h.counted, ofNat_add_zeroExtend, Nat.add_assoc, BitVec.ofNat_add 64]
    rfl
  rw [← List.append_assoc, sha1State_append blocks (length_msgTail_le n s),
    compressBlocks_append iv (k := 1) (length_ipad k), compressBlocks_single iv (length_ipad k), ← h.absorbed,
    length_msgTail s hn, List.length_append, length_ipad, ← eight_mul_ofNat, ← count]
  rfl

/-- Zeros past the key change no pad, so the latch's outer pad is the key's (R91). -/
theorem MacStream.opad_ksave {k m : List Byte} {s : State} (h : MacStream k m s) : opad s.ksave.toList = opad k := by
  rw [h.latched]
  exact keyPad_append_zeros 0x5C k _

theorem MacStream.final {k m : List Byte} {s : State} {n : BitVec 7} (h : MacStream k m s) (hn : n ≤ 64) :
    ser (macFinalEffect n s).h = hmac k (m ++ msgTail n s) ∧
      (macFinalEffect n s).tlen = BitVec.ofNat 64 (m.length + n.toNat) := by
  constructor
  · change ser (finish (compress iv (opad s.ksave.toList)) (ser (Machine.innerDigest n s)) 672) = _
    rw [h.opad_ksave, h.innerDigest hn, ← sha1State_opad]
    rfl
  · change s.tlen + n.zeroExtend 64 = _
    rw [h.counted, ofNat_add_zeroExtend]

/-- Settles O57, as O56. -/
theorem macStreamComputesHmac : Obligations.MacStreamComputesHmac := by
  refine ⟨fun s ha hk => ?start, fun s k m ha h => ?update, fun s k m n ha h hn => ?final⟩
  case start => exact ⟨_, exec_command_engine .macStart 0 ha, (macStream_start hk).finishCommand⟩
  case update => exact ⟨_, exec_command_engine .hashUpdate 64 ha, h.update.finishCommand⟩
  case final =>
    obtain ⟨mac, count⟩ := h.final hn
    exact ⟨_, exec_command_engine .macFinal n ha, mac, count, rfl, rfl, rfl⟩

/-! ## Stale bytes (R134) -/

theorem hashFinalEffect_msg {s : State} {m : Vector Word 16} {n : BitVec 7}
    (h : msgTail n { s with msg := m } = msgTail n s) :
    hashFinalEffect n { s with msg := m } = { hashFinalEffect n s with msg := m } := by
  rw [hashFinalEffect, h]; rfl

theorem macFinalEffect_msg {s : State} {m : Vector Word 16} {n : BitVec 7}
    (h : msgTail n { s with msg := m } = msgTail n s) :
    macFinalEffect n { s with msg := m } = { macFinalEffect n s with msg := m } := by
  rw [macFinalEffect, innerDigest, h]; rfl

theorem macStartEffect_key {s : State} {k : Vector Word 16} (h : keyOperand { s with key := k } = keyOperand s) :
    macStartEffect { s with key := k } = { macStartEffect s with key := k } := by
  have same : latchedKey { s with key := k } = latchedKey s := latchedKey_congr (s := { s with key := k }) rfl h
  rw [macStartEffect, same]; rfl

theorem tokenGenEffect_key {s : State} {k : Vector Word 16} (h : keyOperand { s with key := k } = keyOperand s) :
    tokenGenEffect { s with key := k } = { tokenGenEffect s with key := k } := by
  have same : tokenOf { s with key := k } = tokenOf s := by rw [tokenOf, h]; rfl
  rw [tokenGenEffect, same]; rfl

/-- A completion whose effect is the same with other bytes in MSG, up to MSG itself, leaves the same. -/
theorem exec_engine_msg {s : State} {m : Vector Word 16} {c : Op} {n : BitVec 7} (ha : s.agent = .engine)
    (h : commandEffect c n { s with msg := m } = { commandEffect c n s with msg := m }) :
    ∃ t, exec (commandInstr c n) s = .next t ∧
      exec (commandInstr c n) { s with msg := m } = .next { t with msg := m } := by
  refine ⟨_, exec_command_engine c n ha, ?_⟩
  rw [exec_command_engine (s := { s with msg := m }) c n ha, h]
  rfl

/-- The same for KEY. -/
theorem exec_engine_key {s : State} {k : Vector Word 16} {c : Op} {n : BitVec 7} (ha : s.agent = .engine)
    (h : commandEffect c n { s with key := k } = { commandEffect c n s with key := k }) :
    ∃ t, exec (commandInstr c n) s = .next t ∧
      exec (commandInstr c n) { s with key := k } = .next { t with key := k } := by
  refine ⟨_, exec_command_engine c n ha, ?_⟩
  rw [exec_command_engine (s := { s with key := k }) c n ha, h]
  rfl

/-- Settles O60: the effects read MSG through the tail of n bytes, and KEY through the key of KEYLEN bytes. -/
theorem staleBytesIgnored : Obligations.StaleBytesIgnored := by
  refine ⟨fun s m n ha hm => ?msg, fun s k ha _ hk => ?key⟩
  case msg =>
    have tail : msgTail n { s with msg := m } = msgTail n s := hm
    exact ⟨exec_engine_msg (c := .hashFinal) ha (hashFinalEffect_msg tail),
      exec_engine_msg (c := .macFinal) ha (macFinalEffect_msg tail)⟩
  case key =>
    have key : keyOperand { s with key := k } = keyOperand s := hk
    exact ⟨exec_engine_key (c := .macStart) (n := 0) ha (macStartEffect_key key),
      exec_engine_key (c := .tokenGen) (n := 0) ha (tokenGenEffect_key key)⟩

end Sys2Proof.Machine
end

section
/-! PROOFS. The pseudo-instructions `hash`, `mac` and `token` (30_encoding.md section 5): the loads and waits of one
message, and what they leave. -/

namespace Sys2Proof.Machine

/-! ## The blocks of a message (R66) -/

/-- From `s` to `t` nothing is left pending and no error is recorded. -/
structure Quietly (s t : State) : Prop where
  idle : t.busy = false
  err : t.err = s.err
  errcode : t.errcode = s.errcode

theorem Quietly.trans {s t u : State} (h : Quietly s t) (k : Quietly t u) : Quietly s u where
  idle := k.idle
  err := k.err.trans h.err
  errcode := k.errcode.trans h.errcode

/-- What taking the first `k` blocks of `b` leaves of a state: H and TLEN move on, MODE and KSAVE stay. -/
structure Absorbs (b : List Byte) (k : Nat) (s t : State) : Prop extends Quietly s t where
  digest : t.h = compressBlocks s.h b k
  count : t.tlen = s.tlen + BitVec.ofNat 64 (64 * k)
  mode : t.mode = s.mode
  ksave : t.ksave = s.ksave

theorem Absorbs.zero {b : List Byte} {s : State} (hb : s.busy = false) : Absorbs b 0 s s where
  idle := hb
  err := rfl
  errcode := rfl
  digest := rfl
  count := (BitVec.add_zero _).symm
  mode := rfl
  ksave := rfl

/-- One block more, once its 64 bytes stand in MSG. -/
theorem Absorbs.succ {b : List Byte} {k : Nat} {s t u : State} (h : Absorbs b k s t) (quietly : Quietly t u)
    (digest : u.h = compress t.h (slice b (64 * k) 64)) (count : u.tlen = t.tlen + 64) (mode : u.mode = t.mode)
    (ksave : u.ksave = t.ksave) : Absorbs b (k + 1) s u where
  toQuietly := h.toQuietly.trans quietly
  digest := by rw [digest, compressBlocks_succ, ← h.digest]
  count := by
    rw [count, Nat.mul_succ, BitVec.ofNat_add, ← BitVec.add_assoc, ← h.count]
    rfl
  mode := mode.trans h.mode
  ksave := ksave.trans h.ksave

/-- The load of one block, HASH_UPDATE and its wait. -/
theorem runsTo_block (polls : Nat) {b : List Byte} {k : Nat} (hk : 64 * k + 64 ≤ b.length) {s t : State}
    (h : Absorbs b k s t) (hm : s.mode ≠ .idle) :
    ∃ u, RunsTo (ldMsg (slice b (64 * k) 64) ++ [line .hashUpdate] ++ waitEvents polls) t u ∧
      Absorbs b (k + 1) s u := by
  have len : (slice b (64 * k) 64).length = 64 := by rw [slice_length]; omega
  obtain ⟨m, a, load, hmsg⟩ := RunsTo.ldMsg len.le h.idle
  rw [len, List.take_of_length_le (length_windowBytes m).le] at hmsg
  have streaming : t.mode ≠ .idle := h.mode ▸ hm
  obtain ⟨r, update⟩ := RunsTo.command polls (s := { t with msg := m, agent := a }) (p := ⟨.hashUpdate, 64⟩)
    h.idle (commandOf_cmdWord (op := .hashUpdate) 64 rfl) ⟨rfl, streaming⟩
  refine ⟨_, (load.append update).cast (by rw [List.append_assoc]; rfl), h.succ ⟨rfl, rfl, rfl⟩ ?_ rfl rfl rfl⟩
  rw [← hmsg]
  rfl

/-- The first `k` blocks of a message, by induction: each wait has its own count of polls. -/
theorem runsTo_blocks (polls : Nat → Nat) (b : List Byte) {s : State} (hb : s.busy = false) (hm : s.mode ≠ .idle)
    {k : Nat} (hk : 64 * k ≤ b.length) :
    ∃ t, RunsTo ((List.range k).flatMap fun j =>
        ldMsg (slice b (64 * j) 64) ++ [line .hashUpdate] ++ waitEvents (polls j)) s t ∧ Absorbs b k s t := by
  induction k with
  | zero => exact ⟨s, RunsTo.nil s, Absorbs.zero hb⟩
  | succ k ih =>
    obtain ⟨t, before, absorbed⟩ := ih (by omega)
    obtain ⟨u, block, absorbed'⟩ := runsTo_block (polls k) (by omega) absorbed hm
    refine ⟨u, (before.append block).cast ?_, absorbed'⟩
    rw [List.range_succ, List.flatMap_append, List.flatMap_singleton]

/-- NBYTES of the final command. -/
def tailCount (b : List Byte) : BitVec 7 := BitVec.ofNat 7 (b.length % 64)

theorem toNat_tailCount (b : List Byte) : (tailCount b).toNat = b.length % 64 := by
  rw [tailCount, BitVec.toNat_ofNat]
  omega

theorem tailCount_le (b : List Byte) : tailCount b ≤ 64 := by
  rw [BitVec.le_def, toNat_tailCount]
  exact (Nat.mod_lt _ (by decide)).le

theorem length_tailBytes (b : List Byte) : (tailBytes b).length = b.length % 64 := by
  rw [tailBytes, List.length_drop]
  omega

/-- All of a message: its whole blocks absorbed, and the rest of it in MSG. -/
theorem runsTo_message (polls : Nat → Nat) (b : List Byte) {s : State} (hb : s.busy = false) (hm : s.mode ≠ .idle) :
    ∃ t, RunsTo (updateEvents polls b ++ ldMsg (tailBytes b)) s t ∧ Absorbs b (b.length / 64) s t ∧
      msgTail (tailCount b) t = tailBytes b := by
  have short : (tailBytes b).length ≤ 64 := by rw [length_tailBytes]; omega
  obtain ⟨t, blocks, absorbed⟩ := runsTo_blocks polls b hb hm (k := b.length / 64) (by omega)
  obtain ⟨m, a, load, hmsg⟩ := RunsTo.ldMsg short absorbed.idle
  refine ⟨_, blocks.append load, { absorbed with }, ?_⟩
  rw [length_tailBytes, ← toNat_tailCount] at hmsg
  exact hmsg

/-! ## The streams after a message's blocks -/

/-- The whole blocks of a message. -/
def headBytes (b : List Byte) : List Byte := b.take (64 * (b.length / 64))

theorem headBytes_append_tailBytes (b : List Byte) : headBytes b ++ tailBytes b = b := List.take_append_drop _ b

theorem length_headBytes (b : List Byte) : (headBytes b).length = 64 * (b.length / 64) := length_take_wholeBlocks b

theorem length_headBytes_add (b : List Byte) : (headBytes b).length + (tailCount b).toNat = b.length := by
  rw [length_headBytes, toNat_tailCount, Nat.div_add_mod]

theorem compressBlocks_headBytes (h : Digest) (b : List Byte) :
    compressBlocks h (headBytes b) ((headBytes b).length / 64) = compressBlocks h b (b.length / 64) := by
  rw [length_headBytes, Nat.mul_div_cancel_left _ (by decide)]
  exact compressBlocks_take h b

theorem HashStream.absorbs {b : List Byte} {s t : State} (h : HashStream [] s) (ht : Absorbs b (b.length / 64) s t) :
    HashStream (headBytes b) t where
  mode_hash := ht.mode.trans h.mode_hash
  whole_blocks := by rw [length_headBytes, Nat.mul_mod_right]
  absorbed := by rw [ht.digest, h.absorbed, compressBlocks_headBytes]; rfl
  counted := by rw [ht.count, h.counted, length_headBytes]; exact BitVec.zero_add _

theorem MacStream.absorbs {k b : List Byte} {s t : State} (h : MacStream k [] s)
    (ht : Absorbs b (b.length / 64) s t) : MacStream k (headBytes b) t where
  mode_mac := ht.mode.trans h.mode_mac
  key_short := h.key_short
  whole_blocks := by rw [length_headBytes, Nat.mul_mod_right]
  absorbed := by rw [ht.digest, h.absorbed, compressBlocks_headBytes]; rfl
  counted := by rw [ht.count, h.counted, length_headBytes]; exact BitVec.zero_add _
  latched := ht.ksave ▸ h.latched

/-- The word of a final command, as the assembler writes it (R65). -/
theorem commandOf_counted {c : Op} (n : BitVec 7) (hc : takesCount c = true) :
    commandOf ((opCode c).zeroExtend 32 + (n.zeroExtend 32 <<< 8)) = some (c, n) := by
  rw [← cmdWord_eq_add]
  exact commandOf_cmdWord n hc

/-! ## `hash b` -/

theorem runsTo_hashInit (polls : Nat) {s : State} (hb : s.busy = false) :
    ∃ t, RunsTo (line .hashInit :: waitEvents polls) s t ∧ HashStream [] t ∧ Quietly s t := by
  obtain ⟨r, run⟩ := RunsTo.command polls (p := ⟨.hashInit, 0⟩) hb (commandOf_cmdWord_zero .hashInit) rfl
  exact ⟨_, run, ⟨rfl, rfl, rfl, rfl⟩, ⟨rfl, rfl, rfl⟩⟩

theorem runsTo_hashFinal (polls : Nat) {s : State} {b : List Byte} (hb : s.busy = false)
    (h : HashStream (headBytes b) s) (tail : msgTail (tailCount b) s = tailBytes b) :
    ∃ t, RunsTo (line (.hashFinal (tailCount b)) :: waitEvents polls) s t ∧ Quietly s t ∧
      ser t.h = sha1 b ∧ t.dvalid = true ∧ t.mode = .idle ∧ t.tlen = BitVec.ofNat 64 b.length := by
  obtain ⟨r, run⟩ := RunsTo.command polls (p := ⟨.hashFinal, tailCount b⟩) hb
    (commandOf_counted (c := .hashFinal) (tailCount b) rfl) ⟨tailCount_le b, h.mode_hash⟩
  have accepted : msgTail (tailCount b) (acceptCommand ⟨.hashFinal, tailCount b⟩ s) = tailBytes b := tail
  obtain ⟨digest, count⟩ := (h.acceptCommand ⟨.hashFinal, tailCount b⟩).final (tailCount_le b)
  rw [accepted, headBytes_append_tailBytes] at digest
  rw [length_headBytes_add] at count
  exact ⟨_, run, ⟨rfl, rfl, rfl⟩, congrArg ser digest, rfl, rfl, count⟩

/-- Settles O58: the empty stream is opened, the blocks are absorbed, and HASH_FINAL finishes the tail. -/
theorem hashOfAnyMessage : Obligations.HashOfAnyMessage := by
  intro s polls b hb hi
  obtain ⟨t, init, opened, quiet⟩ := runsTo_hashInit (polls 0) hb
  have streaming : t.mode ≠ .idle := by simp [opened.mode_hash]
  obtain ⟨u, message, absorbed, tail⟩ := runsTo_message (fun j => polls (j + 1)) b quiet.idle streaming
  obtain ⟨v, final, quiet', digest, dvalid, mode, count⟩ :=
    runsTo_hashFinal (polls (b.length / 64 + 1)) absorbed.idle (opened.absorbs absorbed) tail
  have all : RunsTo (hashEvents polls b) s v := (init.append (message.append final)).cast (by
    simp [hashEvents, tailCount])
  obtain ⟨idle, err, errcode⟩ := quiet.trans (absorbed.toQuietly.trans quiet')
  exact ⟨_, all.run hi, digest, dvalid, mode, count, idle, rfl, err, errcode⟩

/-! ## `mac k, b` -/

/-- `ld.key k` leaves k as the key operand, and a legal KEYLEN. -/
theorem runsTo_loadKey {k : List Byte} (hk : k.length ≤ 64) {s : State} (hb : s.busy = false) :
    ∃ w n, RunsTo (ldKey k) s { s with key := w, keylen := n, agent := .host } ∧ n ≤ 64 ∧
      (windowBytes w).take n.toNat = k := by
  have value : (BitVec.ofNat 7 k.length).toNat = k.length := by
    rw [BitVec.toNat_ofNat]
    omega
  obtain ⟨w, load, hw⟩ := RunsTo.ldKey hk hb
  refine ⟨w, _, load, ?_, ?_⟩
  · rw [BitVec.le_def, value]
    exact hk
  · rw [value, hw]

theorem runsTo_macStart (polls : Nat) {s : State} {k : List Byte} (hk : k.length ≤ 64) (hb : s.busy = false) :
    ∃ t, RunsTo (ldKey k ++ line .macStart :: waitEvents polls) s t ∧ MacStream k [] t ∧ Quietly s t := by
  obtain ⟨w, n, load, hn, hw⟩ := runsTo_loadKey hk hb
  obtain ⟨r, start⟩ := RunsTo.command polls (s := { s with key := w, keylen := n, agent := .host })
    (p := ⟨.macStart, 0⟩) hb (commandOf_cmdWord_zero .macStart) ⟨rfl, hn⟩
  have stream := macStream_start
    (s := acceptCommand ⟨.macStart, 0⟩ { s with key := w, keylen := n, agent := .host }) hn
  have operand : keyOperand (acceptCommand ⟨.macStart, 0⟩ { s with key := w, keylen := n, agent := .host }) = k := hw
  rw [operand] at stream
  exact ⟨_, load.append start, { stream with }, ⟨rfl, rfl, rfl⟩⟩

theorem runsTo_macFinal (polls : Nat) {s : State} {k b : List Byte} (hb : s.busy = false)
    (h : MacStream k (headBytes b) s) (tail : msgTail (tailCount b) s = tailBytes b) :
    ∃ t, RunsTo (line (.macFinal (tailCount b)) :: waitEvents polls) s t ∧ Quietly s t ∧
      ser t.h = hmac k b ∧ t.dvalid = true ∧ t.mode = .idle ∧ t.tlen = BitVec.ofNat 64 b.length ∧
      t.ksave = Vector.replicate 64 0 := by
  obtain ⟨r, run⟩ := RunsTo.command polls (p := ⟨.macFinal, tailCount b⟩) hb
    (commandOf_counted (c := .macFinal) (tailCount b) rfl) ⟨tailCount_le b, h.mode_mac⟩
  have accepted : msgTail (tailCount b) (acceptCommand ⟨.macFinal, tailCount b⟩ s) = tailBytes b := tail
  obtain ⟨mac, count⟩ := (h.acceptCommand ⟨.macFinal, tailCount b⟩).final (tailCount_le b)
  rw [accepted, headBytes_append_tailBytes] at mac
  rw [length_headBytes_add] at count
  exact ⟨_, run, ⟨rfl, rfl, rfl⟩, mac, rfl, rfl, count, rfl⟩

/-! ## `token k, c` -/

theorem runsTo_wrCounter (c : Word) {s : State} (hb : s.busy = false) :
    RunsTo [line (.wr .counter c)] s { s with counter := c, agent := .host } :=
  RunsTo.access (decode_write_offCounter c) fun _ => congrArg Host.Outcome.next (writeUnlessBusy_of_idle _ hb)

/-- TOKEN_GEN's effect is all that its acceptance, completion and wait leave of the results. -/
theorem runsTo_tokenGen (polls : Nat) {s : State} (hb : s.busy = false) (hl : s.keylen ≤ 64) :
    ∃ t, RunsTo (line .tokenGen :: waitEvents polls) s t ∧ Quietly s t ∧
      t = { tokenGenEffect s with done := t.done, pend := t.pend, agent := t.agent, rdata := t.rdata } := by
  obtain ⟨r, run⟩ := RunsTo.command polls (p := ⟨.tokenGen, 0⟩) hb (commandOf_cmdWord_zero .tokenGen) ⟨rfl, hl⟩
  exact ⟨_, run, ⟨rfl, rfl, rfl⟩, rfl⟩

/-- The effect is taken in a state `u` that holds the key, the counter and DIGITS. -/
theorem runsTo_token (polls : Nat) {s : State} {k : List Byte} (c : Word) (hk : k.length ≤ 64) (hb : s.busy = false) :
    ∃ u t, RunsTo (tokenEvents polls k c) s t ∧ Quietly s t ∧
      t = { tokenGenEffect u with done := t.done, pend := t.pend, agent := t.agent, rdata := t.rdata } ∧
      keyOperand u = k ∧ u.counter = c ∧ u.digits = s.digits := by
  obtain ⟨w, n, load, hn, hw⟩ := runsTo_loadKey hk hb
  have counter := runsTo_wrCounter c (s := { s with key := w, keylen := n, agent := .host }) hb
  obtain ⟨t, token, quiet, ht⟩ :=
    runsTo_tokenGen polls (s := { s with key := w, keylen := n, agent := .host, counter := c }) hb hn
  have all : RunsTo (tokenEvents polls k c) s t := (load.append (counter.append token)).cast (by
    simp [tokenEvents])
  exact ⟨_, t, all, { quiet with }, ht, hw, rfl, rfl⟩

/-- Settles O59: `mac` as `hash`, after the key is loaded; `token` is one completion, whose results are the
generator's on the key and the counter loaded. -/
theorem macOfAnyMessage : Obligations.MacOfAnyMessage := by
  refine ⟨fun s polls k b hk hb hi => ?mac, fun s polls k c hk _ hdigits hb hi => ?token⟩
  case mac =>
    obtain ⟨t, start, opened, quiet⟩ := runsTo_macStart (polls 0) hk hb
    have streaming : t.mode ≠ .idle := by simp [opened.mode_mac]
    obtain ⟨u, message, absorbed, tail⟩ := runsTo_message (fun j => polls (j + 1)) b quiet.idle streaming
    obtain ⟨v, final, quiet', mac, dvalid, mode, count, ksave⟩ :=
      runsTo_macFinal (polls (b.length / 64 + 1)) absorbed.idle (opened.absorbs absorbed) tail
    have all : RunsTo (macEvents polls k b) s v := (start.append (message.append final)).cast (by
      simp [macEvents, tailCount])
    obtain ⟨idle, err, errcode⟩ := quiet.trans (absorbed.toQuietly.trans quiet')
    exact ⟨_, all.run hi, mac, dvalid, mode, count, ksave, idle, rfl, err, errcode⟩
  case token =>
    intro mac v
    obtain ⟨u, t, all, ⟨idle, err, errcode⟩, ht, key, counter, digits⟩ := runsTo_token polls c hk hb
    have mac_eq : (tokenOf u).mac = mac := by rw [tokenOf, key, counter]; rfl
    have value_eq : (tokenOf u).value = v := by rw [tokenOf, key, counter, digits]; rfl
    have tstr := tokenGenEffect_tstr_toList (s := u) (digits ▸ hdigits)
    rw [value_eq, digits] at tstr
    refine ⟨_, all.run hi, ?_⟩
    rw [ht] at idle err errcode ⊢
    exact ⟨(ser_unSer (length_hmac _ _)).trans mac_eq, congrArg truncate mac_eq, value_eq, tstr, rfl, rfl, rfl, rfl,
      counter, rfl, idle, rfl, err, errcode⟩

end Sys2Proof.Machine
end
